-- ==== Sys2Proof/Word.lean ====
section
/-! DEFINITION. The word types of the block: a command or response word, the 16-bit operand and result field,
the four-bit terminal patterns and the two-bit counter. Bit 0 is the least significant everywhere (R8, R55). -/

namespace Sys2Proof

/-- A command word or a response word: 32 bits, presented whole (R55, R70, R78; `CMD_WIDTH` = `RSP_WIDTH` = 32 of R7). -/
abbrev Word := BitVec 32

/-- The 16-bit `ARG` field of a command word and `VALUE` field of a response word (R71, R75, R78; `ARG_WIDTH` = 16 of R7). -/
abbrev Half := BitVec 16

/-- A four-bit vector with one bit for each coil terminal, written `0b<B2><B1><A2><A1>` (R12; `N_TERM` = 4 of R7). -/
abbrev Pattern := BitVec 4

/-- The two bits that hold the Drift Correction Counter (R21). -/
abbrev Counter := BitVec 2

end Sys2Proof
end

