-- ==== Sys2Proof/Config.lean ====
section
/-! DEFINITION. What an implementation fixes: the coil terminals, the visiting orders, and the parameters of R7 as
one structure, with the values this hardware takes (`Params.hw`) and the constraints R15 puts on any choice.
The two parameters the spec leaves OPEN are constants without a body. -/

namespace Sys2Proof

/-- The four coil terminals, in index order A1, A2, B1, B2 (R12, R50, R58). -/
inductive Terminal where
  | a1 | a2 | b1 | b2
deriving DecidableEq, Repr

/-- A visiting order: the terminal at each sequence position 0..3 (R12, R120). -/
structure VisitOrder where
  at0 : Terminal
  at1 : Terminal
  at2 : Terminal
  at3 : Terminal
deriving DecidableEq, Repr

/-- The four terminals of an order, first visited first. -/
def VisitOrder.toList (o : VisitOrder) : List Terminal := [o.at0, o.at1, o.at2, o.at3]

/-- The mirror order: position `j` of the mirror is position `3 - j` of the order (R15, R120). -/
def VisitOrder.mirror (o : VisitOrder) : VisitOrder := ⟨o.at3, o.at2, o.at1, o.at0⟩

/-- The parameters of R7 that a value of this hardware can depend on. They are configuration, constant for the life
of the hardware, and no part of the state (R30). -/
structure Params where
  /-- `BASE_PPR`, pulses per mechanical revolution. -/
  basePpr : Nat
  /-- `DEG_PER_REV`, divisor of the first division. -/
  degPerRev : Nat
  /-- `SUBSTEP_DIV`, divisor of the second division. -/
  substepDiv : Nat
  /-- `DEG_SCALE`, units of the degrees operand in one degree. -/
  degScale : Nat
  /-- `DCC_MOD`, modulus of the Drift Correction Counter. -/
  dccMod : Nat
  /-- `DCC_INIT`, reset value of the counter. -/
  dccInit : Counter
  /-- `ORDER_CW`, the clockwise visiting order. -/
  orderCw : VisitOrder
  /-- `ORDER_CCW`, the counter-clockwise visiting order. -/
  orderCcw : VisitOrder
  /-- `REST_PATTERN`, the levels `INIT` writes. -/
  restPattern : Pattern
  /-- `FINI_DEENERGIZE`, whether `FINI` writes all terminals low. -/
  finiDeenergize : Bool
  /-- `DWELL_MS`, the nominal dwell in milliseconds; no step depends on it (R53, R195). -/
  dwellMs : Nat
deriving DecidableEq, Repr

/-- The values this hardware takes: the "value" column of R7. -/
def Params.hw : Params where
  basePpr := 200
  degPerRev := 360
  substepDiv := 4
  degScale := 10
  dccMod := 3
  dccInit := 1
  orderCw := ⟨.a1, .b1, .a2, .b2⟩
  orderCcw := ⟨.b2, .a2, .b1, .a1⟩
  restPattern := 0b0101
  finiDeenergize := false
  dwellMs := 5

/-- How many bits of a pattern are set. -/
def patternBits (v : Pattern) : Nat :=
  (v.getLsbD 0).toNat + (v.getLsbD 1).toNat + (v.getLsbD 2).toNat + (v.getLsbD 3).toNat

/-- The constraints of R15 on the parameters, and that each order visits every terminal
(DEDUCED from R120's "The four terminals are visited in one order", log entry 6). -/
def Params.valid (p : Params) : Bool :=
  decide (patternBits p.restPattern = 2) && decide (p.orderCcw = p.orderCw.mirror) &&
    decide (p.dccInit ≠ 3) && decide (1 ≤ p.degScale) && decide p.orderCw.toList.Nodup

/-- `F_CLK` in Hz, OPEN (R7, R197): a constant with no value here, which no step reads (log entry 7). -/
opaque Config.fClkHz : Nat

/-- `PIN_MAP`, OPEN (R7, R58): the platform's physical pin of each terminal, which no step reads (log entry 7). -/
opaque Config.pinMap : Terminal → Nat

/-- The clock cycles of one dwell, `DWELL_MS * F_CLK / 1000` (R53, R173); descriptive, no step reads it (R195). -/
def Params.dwellCycles (p : Params) : Nat := p.dwellMs * Config.fClkHz / 1000

end Sys2Proof
end

