-- ==== Sys2Proof/Syntax.lean ====
section
/-! DEFINITION. The commands: one constructor for each of the seven rows of spec/opcode_table.json (R2, R72, R82).
Operands are the numbers a listing writes; that they fit their field is WellFormed.lean's check. -/

namespace Sys2Proof

/-- The Direction operand: CLOCKWISE or COUNTER_CLOCKWISE (R74). -/
inductive Dir where
  | cw | ccw
deriving DecidableEq, Repr

/-- The seven commands of R72. -/
inductive Instr where
  /-- `INIT` (R126). -/
  | init
  /-- `FINI` (R129). -/
  | fini
  /-- `SETPOS dir, #deg`: the angle in units of 1/`DEG_SCALE` degree (R150). -/
  | setpos (dir : Dir) (deg : Nat)
  /-- `QUANT #deg`: the angle in units of 1/`DEG_SCALE` degree (R100). -/
  | quant (deg : Nat)
  /-- `DRIVE dir, n`: `n` sub-steps (R124). -/
  | drive (dir : Dir) (n : Nat)
  /-- `STEPCW` (R122). -/
  | stepcw
  /-- `STEPCCW` (R123). -/
  | stepccw
deriving DecidableEq, Repr

end Sys2Proof
end

