-- ==== Sys2Proof/WellFormed.lean ====
section
/-! DEFINITION. Which commands can be written as a word: every operand fits the 16-bit `ARG` field (R75, R83).
The direction operand is of a type with two values, so it needs no check (R74). -/

namespace Sys2Proof

/-- An operand `ARG` can hold: 0 to 65535 (R75). -/
def argFits (n : Nat) : Bool := decide (n < 65536)

/-- A command is well formed when its angle or count fits the `ARG` field. -/
def Instr.wellFormed : Instr → Bool
  | .init => true
  | .fini => true
  | .setpos _ deg => argFits deg
  | .quant deg => argFits deg
  | .drive _ n => argFits n
  | .stepcw => true
  | .stepccw => true

end Sys2Proof
end

