-- ==== Sys2Proof/Decode.lean ====
section
/-! DEFINITION. Command words: the fields of format `C` (R71), the legality table (R76), the decoder, total on every
32-bit word and naming the reason when it rejects one (R77), and the encoder, written from R72 and R82. -/

namespace Sys2Proof

/-- `OP`, bits 31:28 (R71). -/
def opField (w : Word) : BitVec 4 := w.extractLsb' 28 4

/-- `DIR`, bit 27 (R71). -/
def dirField (w : Word) : Bool := w.getLsbD 27

/-- `RSV`, bits 26:16 (R71). -/
def rsvField (w : Word) : BitVec 11 := w.extractLsb' 16 11

/-- `ARG`, bits 15:0 (R71). -/
def argField (w : Word) : Half := w.extractLsb' 0 16

/-- `dir(b)`: 0 is clockwise, 1 is counter-clockwise (R74). -/
def dirOfBit (b : Bool) : Dir := if b then .ccw else .cw

/-- The `DIR` bit of a direction (R74). -/
def bitOfDir : Dir → Bool
  | .cw => false
  | .ccw => true

/-- One row of the legality table: a word matches when its masked bits equal `pattern` (R76). -/
structure LegalRow where
  mnemonic : String
  mask : Word
  pattern : Word
deriving DecidableEq, Repr

/-- The legality table of R76, row by row. -/
def legalRows : List LegalRow :=
  [ ⟨"INIT", 0xFFFFFFFF, 0x10000000⟩,
    ⟨"FINI", 0xFFFFFFFF, 0x20000000⟩,
    ⟨"SETPOS", 0xF7FF0000, 0x30000000⟩,
    ⟨"QUANT", 0xFFFF0000, 0x40000000⟩,
    ⟨"DRIVE", 0xF7FF0000, 0x50000000⟩,
    ⟨"STEPCW", 0xFFFFFFFF, 0x60000000⟩,
    ⟨"STEPCCW", 0xFFFFFFFF, 0x70000000⟩ ]

/-- A word matches a row of the table. -/
def LegalRow.matches (r : LegalRow) (w : Word) : Bool := decide (w &&& r.mask = r.pattern)

/-- `Legal(w)`: some row of the table matches (R76). -/
def legal (w : Word) : Bool := legalRows.any fun r => r.matches w

/-- Why a word is illegal: the clauses of R77. The hardware reports none of these reasons, it has one cause only (R161);
they name the decoder's rejections. -/
inductive Illegal where
  /-- `OP` = 0 or `OP` in 8..15. -/
  | reservedOp
  /-- Some bit of `RSV` is set. -/
  | nonzeroRsv
  /-- `DIR` = 1 in a command that does not use it. -/
  | unusedDir
  /-- A non-zero `ARG` in a command that does not use it. -/
  | unusedArg
deriving DecidableEq, Repr

/-- The operands of a command that uses neither `DIR` nor `ARG`: both must be zero (R73). -/
def takeNone (w : Word) (i : Instr) : Except Illegal Instr :=
  if dirField w then .error .unusedDir
  else if argField w ≠ 0 then .error .unusedArg
  else .ok i

/-- The operands of a command that uses `ARG` and not `DIR` (R73, R75). -/
def takeArg (w : Word) (f : Nat → Instr) : Except Illegal Instr :=
  if dirField w then .error .unusedDir else .ok (f (argField w).toNat)

/-- The operands of a command that uses both (R74, R75). -/
def takeDirArg (w : Word) (f : Dir → Nat → Instr) : Except Illegal Instr :=
  .ok (f (dirOfBit (dirField w)) (argField w).toNat)

/-- The decoder (R71 to R77): the command a word stands for, or why the word is illegal. -/
def decode (w : Word) : Except Illegal Instr :=
  if opField w = 0 ∨ 8 ≤ (opField w).toNat then .error .reservedOp
  else if rsvField w ≠ 0 then .error .nonzeroRsv
  else if opField w = 1 then takeNone w .init
  else if opField w = 2 then takeNone w .fini
  else if opField w = 3 then takeDirArg w .setpos
  else if opField w = 4 then takeArg w .quant
  else if opField w = 5 then takeDirArg w .drive
  else if opField w = 6 then takeNone w .stepcw
  else takeNone w .stepccw

/-- A word from its fields, `RSV` zero (R71, R73). -/
def assemble (op : BitVec 4) (dir : Bool) (arg : Half) : Word :=
  op ++ BitVec.ofBool dir ++ (0 : BitVec 11) ++ arg

/-- The `OP` code of a command (R72). -/
def opCode : Instr → BitVec 4
  | .init => 1
  | .fini => 2
  | .setpos _ _ => 3
  | .quant _ => 4
  | .drive _ _ => 5
  | .stepcw => 6
  | .stepccw => 7

/-- The `DIR` bit of a command's word: zero where the command does not use it (R72, R73). -/
def dirBit : Instr → Bool
  | .setpos d _ => bitOfDir d
  | .drive d _ => bitOfDir d
  | .init => false
  | .fini => false
  | .quant _ => false
  | .stepcw => false
  | .stepccw => false

/-- The `ARG` field of a command's word: zero where the command does not use it (R72, R73). -/
def argBits : Instr → Half
  | .setpos _ deg => BitVec.ofNat 16 deg
  | .quant deg => BitVec.ofNat 16 deg
  | .drive _ n => BitVec.ofNat 16 n
  | .init => 0
  | .fini => 0
  | .stepcw => 0
  | .stepccw => 0

/-- The word of a well-formed command (R82). -/
def encode (i : Instr) : Word := assemble (opCode i) (dirBit i) (argBits i)

/-- A word from the table's numbering of its bits: bit 0 is the least significant bit of the one 32-bit word, and the
bits above `nbits` are 0. -/
def wordOfTable (nbits w : Nat) : Word := BitVec.ofNat 32 (if nbits < 32 then w % 2 ^ nbits else w)

/-- What the decoder reads from an instruction whose bits are `w`, numbered as the opcode table numbers them. An
instruction of more than 32 bits does not exist (R70). -/
def decodeTableWord (nbits w : Nat) : Option Instr :=
  if nbits ≤ 32 then
    match decode (wordOfTable nbits w) with
    | .ok i => some i
    | .error _ => none
  else none

end Sys2Proof
end

