-- ==== Sys2Proof/Machine/State.lean ====
section
/-! DEFINITION. The state: the tuple `<DCC, COIL, OE, SEQ>` of R20, what stands at the block's input ports (the host's
moves of R194), and the observer's record of the events (R11). With it the reasons a step can stop, and reset. -/

namespace Sys2Proof.Machine

/-- The place inside a terminal pulse, `ph` of R26. -/
inductive Phase where
  /-- `ph` = 0: the energizing write is next. -/
  | energize
  /-- `ph` = 1: the dwell is next. -/
  | dwell
  /-- `ph` = 2: the de-energizing write is next. -/
  | deenergize
deriving DecidableEq, Repr

/-- `SEQ`, the sequencer run state (R26). -/
inductive Seq where
  /-- No command is running; a command can be accepted. -/
  | idle
  /-- `INIT` is running and micro-operation `k` is next. -/
  | initRun (k : Fin 8)
  /-- `FINI` is running with `FINI_DEENERGIZE` = 1 and the write of terminal `k` is next. -/
  | finiRun (k : Fin 4)
  /-- A stepping command is running: its direction, the sub-steps not yet completed, the sequence position of the
  terminal being pulsed and the place inside its pulse. -/
  | stepRun (dir : Dir) (rem : Nat) (pos : Fin 4) (ph : Phase)
  /-- Every effect of the command is done and its response word is next. -/
  | respond (err : Bool) (value : Half)
deriving DecidableEq, Repr

/-- What the block does to the outside world (R11). -/
inductive Event where
  /-- `C(t)`: terminal `t` configured as an output. -/
  | config (t : Terminal)
  /-- `W(t, v)`: level `v` written to terminal `t`. -/
  | write (t : Terminal) (v : Bool)
  /-- `D`: one dwell elapsed. -/
  | dwell
  /-- `RSP(err, value)`: a response word delivered. -/
  | rsp (err : Bool) (value : Half)
deriving DecidableEq, Repr

/-- What the host does at the command port while the block is idle (R194). -/
inductive HostMove where
  /-- Present a word and hold it until it is accepted (R191). -/
  | present (w : Word)
  /-- Present nothing for one idle step. -/
  | pause
deriving DecidableEq, Repr

/-- The state of the block, the pending moves of the host, and the observer's record. -/
structure State where
  /-- `DCC`, the Drift Correction Counter (R21). -/
  dcc : Counter
  /-- `COIL[3:0]`, the level last written to each terminal (R22). -/
  coil : Pattern
  /-- `OE[3:0]`, which terminals have been configured as outputs (R23). -/
  oe : Pattern
  /-- `SEQ`, the sequencer run state (R26). -/
  seq : Seq
  /-- The command port: the host's coming moves, the next one first (R28, R194; log entry 1). -/
  cmd : List HostMove
  /-- The `rst` port: its level at this step, then at each step to come; past the end it is 0 (R28, R180; log entry 2). -/
  rst : List Bool
  /-- The observer's record of the events, the newest first. The block cannot read it (R20; log entry 3). -/
  emitted : List Event
deriving DecidableEq, Repr

/-- Why a step could stop the machine with a fault. There is no such reason: no access, alignment or arithmetic fault
exists (R162), an illegal word is answered and not trapped (R161, R169), and the block cannot hang (R193).
Nothing raises it, which is safe. -/
inductive Fault where
deriving DecidableEq, Repr

/-- Why a command or a step is given no meaning. -/
inductive Refusal where
  /-- An instruction whose meaning is not written yet. Raised by no arm of exec; safe. -/
  | notModelled (mnemonic : String)
  /-- A command that would write a terminal is accepted while some terminal is not configured as an output
  (`93_implementation_defined.md` U1, R52, R182). Raised at acceptance, for the command as a whole, by `STEPCW`,
  `STEPCCW`, by `DRIVE` and `SETPOS` with a count of at least 1, and by `FINI` with `FINI_DEENERGIZE` = 1; safe. -/
  | terminalsNotConfigured
  /-- `TermWrite(t, v)` with `OE[t] = 0` (R52, U1). Raised by the micro-step that would write; no state that meets
  the invariant of Safety.lean raises it, since acceptance refuses first; safe. -/
  | unconfiguredWrite (t : Terminal)
  /-- A meaning asked for while a command is running: acceptance requires `SEQ = Idle`, and a second agent's command
  must not interleave (R80, R186, U11). No step raises it, since a step accepts only when idle; safe. -/
  | commandPortBusy
deriving DecidableEq, Repr

/-- The three outcomes of a step or of a meaning. -/
abbrev Result := Host.Outcome State Fault Refusal

/-- The state a reset leaves for given parameters, with the ports and the record as they are (R33, R180). -/
def State.resetWith (p : Params) : State where
  dcc := p.dccInit
  coil := 0
  oe := 0
  seq := .idle
  cmd := []
  rst := []
  emitted := []

/-- The machine right after reset: `<1, 0b0000, 0b0000>`, `Idle` (R33); no host move is pending and nothing has been
observed (log entries 1, 2, 3). -/
def State.reset : State := State.resetWith Params.hw

end Sys2Proof.Machine
end

