-- ==== Sys2Proof/Machine/Operands.lean ====
section
/-! DEFINITION. The operand forms of the micro-operations: terminal indices and bits, sequence positions, the two
visiting orders, one bit of a pattern, and the constants `INIT` writes (R12, R26, R120, R126). -/

namespace Sys2Proof

/-- The terminal index `t`, which is also the terminal's bit in `COIL` and `OE` (R12). -/
def Terminal.idx : Terminal → Nat
  | .a1 => 0
  | .a2 => 1
  | .b1 => 2
  | .b2 => 3

/-- The terminal of an index in 0..3; no other index can be formed (R50). -/
def Terminal.ofIdx (k : Fin 4) : Terminal :=
  if k = 0 then .a1 else if k = 1 then .a2 else if k = 2 then .b1 else .b2

/-- `ORDER[j]`: the terminal at sequence position `j` (R120). -/
def VisitOrder.get (o : VisitOrder) (j : Fin 4) : Terminal :=
  if j = 0 then o.at0 else if j = 1 then o.at1 else if j = 2 then o.at2 else o.at3

/-- `ORDER[dir]` (R120). -/
def Params.order (p : Params) : Dir → VisitOrder
  | .cw => p.orderCw
  | .ccw => p.orderCcw

/-- The level `INIT` writes to a terminal, `REST_PATTERN[t]` (R126). -/
def Params.restLevel (p : Params) (t : Terminal) : Bool := p.restPattern.getLsbD t.idx

/-- The bit of a terminal in `COIL` or `OE` (R12). -/
def patternBit (v : Pattern) (t : Terminal) : Bool := v.getLsbD t.idx

/-- A pattern with the bit of one terminal set to a level and every other bit as it was (R51, R52). -/
def patternWith (v : Pattern) (t : Terminal) (level : Bool) : Pattern :=
  if level then v ||| 1#4 <<< t.idx else v &&& ~~~(1#4 <<< t.idx)

/-- All four terminals configured: the pattern a stepping command needs in `OE` (R121, R182). -/
def allTerminals : Pattern := 0b1111

end Sys2Proof
end

