-- ==== Sys2Proof/Machine/Flags.lean ====
section
/-! DEFINITION. The block has no condition codes (R27). This file computes what is not stored: the `BUSY` indication, the
output ports of R28, the response word of R78 and what each terminal's pin carries (R29). -/

namespace Sys2Proof.Machine

/-- The level of the `rst` port at this step (R28). -/
def State.rstHigh (s : State) : Bool := s.rst.headD false

/-- `BUSY`: 1 exactly when `SEQ` is not `Idle` (R27). -/
def State.busy (s : State) : Bool := decide (s.seq ≠ .idle)

/-- The port `cmd_ready`: 1 exactly when `SEQ = Idle` and `rst = 0` (R28). -/
def State.cmdReady (s : State) : Bool := decide (s.seq = .idle) && !s.rstHigh

/-- The port `cmd_valid`: the host presents a word (R28). -/
def State.cmdValid (s : State) : Bool :=
  match s.cmd with
  | .present _ :: _ => true
  | .pause :: _ => false
  | [] => false

/-- A response word: `ERR` in bit 31, zeros in 30:16, `VALUE` in 15:0 (R78, R81). -/
def responseWord (err : Bool) (value : Half) : Word :=
  BitVec.ofBool err ++ (0 : BitVec 15) ++ value

/-- The ports `rsp_valid` and `rsp_word`: the response word while `SEQ = Respond(..)` and `rst = 0`, and nothing
otherwise, when `rsp_valid = 0` (R28, R81, R180). -/
def State.rspPort (s : State) : Option Word :=
  match s.seq with
  | .respond err value => if s.rstHigh then none else some (responseWord err value)
  | .idle => none
  | .initRun _ => none
  | .finiRun _ => none
  | .stepRun _ _ _ _ => none

/-- The port `coil_level` (R22, R28). -/
def State.coilLevel (s : State) : Pattern := s.coil

/-- The port `coil_oe` (R23, R28). -/
def State.coilOe (s : State) : Pattern := s.oe

/-- What the pin of a terminal carries: its level when it is configured as an output; otherwise the block does not drive
it, and what it shows is the platform's (R29, U12). -/
def State.pin (s : State) (t : Terminal) : Option Bool :=
  if patternBit s.oe t then some (patternBit s.coil t) else none

/-- The event trace, the oldest event first (R11). -/
def State.trace (s : State) : List Event := s.emitted.reverse

end Sys2Proof.Machine
end

