-- ==== Sys2Proof/Machine/Ops.lean ====
section
/-! DEFINITION. The shared operations: the three primitives on the terminal space (R51, R52, R53), the response and the
one exception (R78, R161), the acceptance guard (R80), and the forced reset (R180). -/

namespace Sys2Proof.Machine

/-- `emit e`: the observer records the event (R11). -/
def State.emit (s : State) (e : Event) : State := { s with emitted := e :: s.emitted }

/-- `CfgOut(t)`: the terminal becomes an output; it cannot fail (R51). -/
def cfgOut (t : Terminal) (s : State) : State :=
  State.emit { s with oe := patternWith s.oe t true } (.config t)

/-- `TermWrite(t, v)`: one bit of `COIL` and one event, whether or not the level changes. It requires `OE[t] = 1`
(R52); a write to a terminal that is not configured has no meaning (U1). -/
def termWrite (t : Terminal) (v : Bool) (s : State) : Result :=
  if patternBit s.oe t then
    .next (State.emit { s with coil := patternWith s.coil t v } (.write t v))
  else .refused (.unconfiguredWrite t)

/-- `Dwell()`: one event and nothing else (R53). -/
def dwell (s : State) : State := s.emit .dwell

/-- `respond(err, value)`: the command's effects are done and its response is next (R78). -/
def respond (err : Bool) (value : Half) (s : State) : State := { s with seq := .respond err value }

/-- Taking the one exception, `IllegalCommand`: an error response and no other effect. Nothing is saved, no mode changes
and nothing is latched (R161, R169). -/
def raiseIllegalCommand (s : State) : State := respond true 0 s

/-- The response step, which ends a command and is also the whole return from `IllegalCommand`: one event, and the block
is idle again (R81, R170). -/
def deliverResponse (err : Bool) (value : Half) (s : State) : State :=
  State.emit { s with seq := .idle } (.rsp err value)

/-- Acceptance requires `SEQ = Idle` (R80). A step accepts only when idle, so only a caller other than a step can meet
the refusal (R186, U11). -/
def accepting (effect : State → Result) (s : State) : Result :=
  match s.seq with
  | .idle => effect s
  | .initRun _ => .refused .commandPortBusy
  | .finiRun _ => .refused .commandPortBusy
  | .stepRun _ _ _ _ => .refused .commandPortBusy
  | .respond _ _ => .refused .commandPortBusy

/-- The acceptance of a command that writes terminals: with all four configured it starts at `start`; otherwise the whole
command is refused (R121, R182, U1). -/
def startWriting (start : Seq) (s : State) : Result :=
  if s.oe = allTerminals then .next { s with seq := start } else .refused .terminalsNotConfigured

/-- The acceptance of a drive of `n` sub-steps: none ends at once, whatever `OE` holds; otherwise the first sub-step
starts at sequence position 0 (R80, R121, R124). -/
def startDrive (dir : Dir) (n : Nat) (s : State) : Result :=
  if n = 0 then .next (respond false 0 s) else startWriting (.stepRun dir n 0 .energize) s

/-- One step passes: the level `rst` had at it is past. -/
def State.tick (s : State) : State := { s with rst := s.rst.tail }

/-- What `rst = 1` forces, in any state: the reset state. The record of the events stands, and a word the host holds
still waits (R168, R180, R181). -/
def forceReset (p : Params) (s : State) : State :=
  { s with dcc := p.dccInit, coil := 0, oe := 0, seq := .idle }

end Sys2Proof.Machine
end

