-- ==== Sys2Proof/Machine/Sequencer.lean ====
section
/-! DEFINITION. The Phase Sequencer: the acceptance of `STEPCW`, `STEPCCW`, `DRIVE`, `INIT` and `FINI` (R80, R122 to
R129), and the micro-steps of a running command, one event each (R121, R126, R129). -/

namespace Sys2Proof.Machine

/-- `STEPCW`: one clockwise sub-step (R122). -/
def execStepcw (s : State) : Result := accepting (startDrive .cw 1) s

/-- `STEPCCW`: one counter-clockwise sub-step (R123). -/
def execStepccw (s : State) : Result := accepting (startDrive .ccw 1) s

/-- `DRIVE dir, n`: `n` sub-steps (R124). -/
def execDrive (dir : Dir) (n : Nat) (s : State) : Result := accepting (startDrive dir n) s

/-- `INIT`: four configurations, then four writes of the resting pattern; legal in every state (R126). -/
def execInit (s : State) : Result := accepting (fun s => .next { s with seq := .initRun 0 }) s

/-- `FINI`, for given parameters: a response only, or with `FINI_DEENERGIZE` = 1 four writes of 0 first (R129). -/
def acceptFini (p : Params) (s : State) : Result :=
  accepting (fun s => if p.finiDeenergize then startWriting (.finiRun 0) s else .next (respond false 0 s)) s

/-- `FINI` (R129). -/
def execFini (s : State) : Result := acceptFini Params.hw s

/-- `step(InitRun(k))` (R126). -/
def initMicroStep (p : Params) (k : Fin 8) (s : State) : Result :=
  if h : k.val < 4 then .next (cfgOut (Terminal.ofIdx ⟨k.val, h⟩) { s with seq := .initRun (k + 1) })
  else
    let t := Terminal.ofIdx ⟨k.val - 4, by omega⟩
    termWrite t (p.restLevel t) { s with seq := if k.val < 7 then .initRun (k + 1) else .respond false 1 }

/-- `step(FiniRun(k))` (R129). -/
def finiMicroStep (k : Fin 4) (s : State) : Result :=
  termWrite (Terminal.ofIdx k) false { s with seq := if k.val < 3 then .finiRun (k + 1) else .respond false 0 }

/-- Where `SEQ` goes after the de-energizing write at sequence position `pos`: the next terminal, the next sub-step from
position 0, or the response (R121). -/
def afterPulse (dir : Dir) (rem : Nat) (pos : Fin 4) : Seq :=
  if pos.val < 3 then .stepRun dir rem (pos + 1) .energize
  else if 1 < rem then .stepRun dir (rem - 1) 0 .energize
  else .respond false 0

/-- `step(StepRun(dir, rem, pos, ph))` (R121). -/
def stepMicroStep (p : Params) (dir : Dir) (rem : Nat) (pos : Fin 4) (ph : Phase) (s : State) : Result :=
  let t := (p.order dir).get pos
  match ph with
  | .energize => termWrite t true { s with seq := .stepRun dir rem pos .dwell }
  | .dwell => .next (dwell { s with seq := .stepRun dir rem pos .deenergize })
  | .deenergize => termWrite t false { s with seq := afterPulse dir rem pos }

end Sys2Proof.Machine
end

