-- ==== Sys2Proof/Machine/Quantizer.lean ====
section
/-! DEFINITION. The Angle Quantizer: `Quantize` (R101 to R103) and the command `QUANT` (R100). -/

namespace Sys2Proof.Machine

/-- The raw count: an exact product and two truncating divisions (R103). -/
def rawCount (p : Params) (arg : Nat) : Nat :=
  p.basePpr * arg / (p.degPerRev * p.degScale) / p.substepDiv

/-- The counter's successor, `(DCC + 1) mod DCC_MOD` (R102). -/
def nextDcc (p : Params) (dcc : Counter) : Counter := BitVec.ofNat 2 ((dcc.toNat + 1) % p.dccMod)

/-- One extra sub-step when the advanced counter is 0 (R102). -/
def correction (p : Params) (dcc : Counter) : Nat := if nextDcc p dcc = 0 then 1 else 0

/-- The result of `Quantize(arg)` with the counter at `dcc` (R101). -/
def pulseCount (p : Params) (dcc : Counter) (arg : Nat) : Nat := rawCount p arg + correction p dcc

/-- The state after `Quantize`: the counter advanced and nothing else (R101, R102). -/
def advanceDcc (p : Params) (s : State) : State := { s with dcc := nextDcc p s.dcc }

/-- `QUANT deg`, for given parameters: the count is the response's value (R80, R100). -/
def acceptQuant (p : Params) (deg : Nat) (s : State) : Result :=
  accepting (fun s => .next (respond false (BitVec.ofNat 16 (pulseCount p s.dcc deg)) (advanceDcc p s))) s

/-- `QUANT deg` (R100). -/
def execQuant (deg : Nat) (s : State) : Result := acceptQuant Params.hw deg s

end Sys2Proof.Machine
end

