-- ==== Sys2Proof/Machine/SetPosition.lean ====
section
/-! DEFINITION. The combined entry point: `SETPOS`, `Quantize` and then the drive, as one command (R150). -/

namespace Sys2Proof.Machine

/-- `SETPOS dir, deg`, for given parameters. A refused drive refuses the whole command, the counter's advance too
(R80, R150, U1). -/
def acceptSetpos (p : Params) (dir : Dir) (deg : Nat) (s : State) : Result :=
  accepting (fun s => startDrive dir (pulseCount p s.dcc deg) (advanceDcc p s)) s

/-- `SETPOS dir, deg` (R150). -/
def execSetpos (dir : Dir) (deg : Nat) (s : State) : Result := acceptSetpos Params.hw dir deg s

end Sys2Proof.Machine
end

