-- ==== Sys2Proof/Machine/Cycle.lean ====
section
/-! DEFINITION. One step of the block (R80, R81, R121, R126, R129, R180): a forced reset, an idle step that accepts the
word the host presents, one micro-step of the running command, or its response. It is written over the parameters
and over the meaning of an accepted command, so that Step.lean's `step` (this hardware, through `exec`) and
`stepWith` (any parameters) are the same text. -/

namespace Sys2Proof.Machine

/-- The meaning of an accepted command for given parameters: the cases of R80. -/
def acceptInstr (p : Params) (i : Instr) (s : State) : Result :=
  match i with
  | .init => execInit s
  | .fini => acceptFini p s
  | .setpos dir deg => acceptSetpos p dir deg s
  | .quant deg => acceptQuant p deg s
  | .drive dir n => execDrive dir n s
  | .stepcw => execStepcw s
  | .stepccw => execStepccw s

/-- `accept(w)`: a word that is not legal raises `IllegalCommand`, a legal one is executed (R80, R168). -/
def acceptWord (meaning : Instr → State → Result) (w : Word) (s : State) : Result :=
  match decode w with
  | .ok i => meaning i s
  | .error _ => .next (raiseIllegalCommand s)

/-- An idle step: the word the host presents is sampled and accepted; with none presented nothing happens (R61, R80). -/
def idleStep (meaning : Instr → State → Result) (s : State) : Result :=
  match s.cmd with
  | [] => .next s
  | .pause :: rest => .next { s with cmd := rest }
  | .present w :: rest => acceptWord meaning w { s with cmd := rest }

/-- A step with `rst = 0`: the next micro-step, by `SEQ` (R26). -/
def runStep (p : Params) (meaning : Instr → State → Result) (s : State) : Result :=
  match s.seq with
  | .idle => idleStep meaning s
  | .initRun k => initMicroStep p k s
  | .finiRun k => finiMicroStep k s
  | .stepRun dir rem pos ph => stepMicroStep p dir rem pos ph s
  | .respond err value => .next (deliverResponse err value s)

/-- One step: `rst = 1` overrides everything, in any state (R168, R180). -/
def cycle (p : Params) (meaning : Instr → State → Result) (s : State) : Result :=
  if s.rstHigh then .next (forceReset p s.tick) else runStep p meaning s.tick

/-- The state with a word at the head of the host's moves, the block idle and `rst` low, so that the next step accepts
that word. -/
def State.presenting (w : Word) (s : State) : State :=
  { s with
    seq := .idle
    cmd := .present w :: s.cmd
    rst :=
      match s.rst with
      | true :: later => false :: later
      | levels => levels }

end Sys2Proof.Machine
end

