-- ==== Sys2Proof/Machine/Dispatch.lean ====
section
/-! DEFINITION. The acceptance of a decoded command: one arm for each command (R80). -/

namespace Sys2Proof.Machine

def exec (i : Instr) (s : State) : Host.Outcome State Fault Refusal :=
  match i with
  | .init => Sys2Proof.Machine.execInit s
  | .fini => Sys2Proof.Machine.execFini s
  | .setpos dir deg => Sys2Proof.Machine.execSetpos dir deg s
  | .quant deg => Sys2Proof.Machine.execQuant deg s
  | .drive dir n => Sys2Proof.Machine.execDrive dir n s
  | .stepcw => Sys2Proof.Machine.execStepcw s
  | .stepccw => Sys2Proof.Machine.execStepccw s

end Sys2Proof.Machine
end

