-- ==== Sys2Proof/Machine/Step.lean ====
section
/-! DEFINITION. The step of this hardware, the same step for any parameters, and how a command's word comes to be the
one the next step accepts. -/

namespace Sys2Proof.Machine

/-- One step of this hardware: the parameters have the values of R7, and an accepted command means what `exec` says. -/
def step (s : State) : Host.Outcome State Fault Refusal := cycle Params.hw exec s

/-- One step of the block with other parameters (R7: "A model may keep any of them as an argument"). -/
def stepWith (p : Params) (s : State) : Host.Outcome State Fault Refusal := cycle p (acceptInstr p) s

/-- The state whose very next step accepts the instruction: the host presents its word, the block is idle, `rst` is low.
The block fetches nothing (R2); a program is the list of words the host presents (R194; log entry 8). -/
def State.withFetchWord (s : State) (nbits w : Nat) : State := s.presenting (wordOfTable nbits w)

end Sys2Proof.Machine
end

