-- ==== Sys2Proof/Safety.lean ====
section
/-! DEFINITION. The terms claims are stated in: runs of steps, the events and the result a command has as the spec's
command-level views give them (R11, R101, R121, R124, R126, R129, R150), what counts as a safe state (R34), and how
many steps are left of a running command (R193). -/

namespace Sys2Proof.Machine

/-- `k` steps of this hardware. -/
def run (k : Nat) (s : State) : Result := Sys2Proof.core.run k s

/-- The block with other parameters (R7). -/
def variant (p : Params) : Host.Core where
  State := State
  Fault := Fault
  Refusal := Refusal
  step := stepWith p
  reset := State.resetWith p

/-- `k` steps of the block with other parameters. -/
def runWith (p : Params) (k : Nat) (s : State) : Result := (variant p).run k s

/-- `rst` is 0 at this step and the next ones, `k` in all. -/
def State.RstLow (s : State) (k : Nat) : Prop := ∀ level ∈ s.rst.take k, level = false

/-- `k` steps pass at the `rst` port. -/
def State.later (k : Nat) (s : State) : State := { s with rst := s.rst.drop k }

/-- The observer records a list of events, the first of the list first. -/
def State.emitAll (events : List Event) (s : State) : State :=
  { s with emitted := events.reverse ++ s.emitted }

/-- A function applied to the next state of an outcome, the other outcomes as they are. -/
def mapNext (f : State → State) : Result → Result
  | .next s => .next (f s)
  | .fault r => .fault r
  | .refused r => .refused r

/-- The next state of an outcome, if it is one. -/
def nextState? : Result → Option State
  | .next s => some s
  | .fault _ => none
  | .refused _ => none

/-! ### The events of a command -/

/-- One terminal pulse (R128). -/
def pulseEvents (t : Terminal) : List Event := [.write t true, .dwell, .write t false]

/-- `SubStep(dir)`: a pulse on each terminal in the visiting order (R121). -/
def subStepEvents (o : VisitOrder) : List Event := o.toList.flatMap pulseEvents

/-- `T(dir, n)`: the events of `n` sub-steps (R124, R131). -/
def driveEvents (p : Params) (dir : Dir) (n : Nat) : List Event :=
  (List.replicate n (subStepEvents (p.order dir))).flatten

/-- The events of `INIT` before its response (R126). -/
def initEvents (p : Params) : List Event :=
  [.config .a1, .config .a2, .config .b1, .config .b2,
    .write .a1 (p.restLevel .a1), .write .a2 (p.restLevel .a2),
    .write .b1 (p.restLevel .b1), .write .b2 (p.restLevel .b2)]

/-- The events of `FINI` before its response (R129). -/
def finiEvents (p : Params) : List Event :=
  if p.finiDeenergize then [.write .a1 false, .write .a2 false, .write .b1 false, .write .b2 false] else []

/-- How many sub-steps a command drives with the counter at `dcc` (R122, R123, R124, R150). -/
def subSteps (p : Params) (dcc : Counter) : Instr → Nat
  | .init => 0
  | .fini => 0
  | .setpos _ deg => pulseCount p dcc deg
  | .quant _ => 0
  | .drive _ n => n
  | .stepcw => 1
  | .stepccw => 1

/-- The direction a command drives in; a command that drives nothing has none, and the value is not used (R122, R123, R124). -/
def commandDir : Instr → Dir
  | .setpos dir _ => dir
  | .drive dir _ => dir
  | .stepcw => .cw
  | .stepccw => .ccw
  | .init => .cw
  | .fini => .cw
  | .quant _ => .cw

/-- The events of a command before its response. -/
def commandEvents (p : Params) (dcc : Counter) : Instr → List Event
  | .init => initEvents p
  | .fini => finiEvents p
  | .setpos dir deg => driveEvents p dir (subSteps p dcc (.setpos dir deg))
  | .quant _ => []
  | .drive dir n => driveEvents p dir n
  | .stepcw => driveEvents p .cw 1
  | .stepccw => driveEvents p .ccw 1

/-- The `VALUE` of a legal command's response (R72, R78). -/
def commandValue (p : Params) (dcc : Counter) : Instr → Half
  | .init => 1
  | .fini => 0
  | .setpos _ _ => 0
  | .quant deg => BitVec.ofNat 16 (pulseCount p dcc deg)
  | .drive _ _ => 0
  | .stepcw => 0
  | .stepccw => 0

/-- A conversion call: the two commands that execute `Quantize` (R14, R101). -/
def isConversion : Instr → Bool
  | .setpos _ _ => true
  | .quant _ => true
  | .init => false
  | .fini => false
  | .drive _ _ => false
  | .stepcw => false
  | .stepccw => false

/-- `DCC` after a command (R21). -/
def commandDcc (p : Params) (dcc : Counter) (i : Instr) : Counter :=
  if isConversion i then nextDcc p dcc else dcc

/-- `OE` after a command: only `INIT` writes it (R23). -/
def commandOe (oe : Pattern) : Instr → Pattern
  | .init => allTerminals
  | .fini => oe
  | .setpos _ _ => oe
  | .quant _ => oe
  | .drive _ _ => oe
  | .stepcw => oe
  | .stepccw => oe

/-- `COIL` after a command: the resting pattern after `INIT`, all low after a command that drove a sub-step (R126, R189). -/
def commandCoil (p : Params) (s : State) : Instr → Pattern
  | .init => p.restPattern
  | .fini => if p.finiDeenergize then 0 else s.coil
  | .setpos dir deg => if subSteps p s.dcc (.setpos dir deg) = 0 then s.coil else 0
  | .quant _ => s.coil
  | .drive _ n => if n = 0 then s.coil else 0
  | .stepcw => 0
  | .stepccw => 0

/-- Whether a command writes a terminal that it does not configure itself: what needs an `INIT` before it (R182). -/
def needsTerminals (p : Params) (dcc : Counter) : Instr → Bool
  | .init => false
  | .fini => p.finiDeenergize
  | .setpos dir deg => decide (subSteps p dcc (.setpos dir deg) ≠ 0)
  | .quant _ => false
  | .drive _ n => decide (n ≠ 0)
  | .stepcw => true
  | .stepccw => true

/-- The steps of a command after the accepting one: one for each event, the response among them (R193). -/
def commandSteps (p : Params) (dcc : Counter) (i : Instr) : Nat := (commandEvents p dcc i).length + 1

/-- The command-level view: the state a command leaves when its response is delivered. -/
def afterCommand (p : Params) (i : Instr) (s : State) : State :=
  State.emitAll (commandEvents p s.dcc i ++ [.rsp false (commandValue p s.dcc i)])
    { s with dcc := commandDcc p s.dcc i, coil := commandCoil p s i, oe := commandOe s.oe i, seq := .idle }

/-! ### Facts of a trace -/

/-- A terminal write. -/
def Event.isWrite : Event → Bool
  | .write _ _ => true
  | .config _ => false
  | .dwell => false
  | .rsp _ _ => false

/-- A response. -/
def Event.isRsp : Event → Bool
  | .rsp _ _ => true
  | .config _ => false
  | .write _ _ => false
  | .dwell => false

/-- An event with the level of a write exchanged (R131). -/
def Event.flip : Event → Event
  | .write t v => .write t (!v)
  | .config t => .config t
  | .dwell => .dwell
  | .rsp e v => .rsp e v

/-- A list of events read backwards with the levels of its writes exchanged (R131). -/
def mirrorEvents (events : List Event) : List Event := events.reverse.map Event.flip

/-- The nominal duration of a list of events in milliseconds: `DWELL_MS` for each dwell (R125, R196). -/
def nominalMs (p : Params) (events : List Event) : Nat := p.dwellMs * events.count .dwell

/-- How many of a list of words are conversion calls; an illegal word is none (R108). -/
def conversionCount (words : List Word) : Nat :=
  words.countP fun w =>
    match decode w with
    | .ok i => isConversion i
    | .error _ => false

/-- Whether this step accepts a conversion call. -/
def State.acceptsConversion (s : State) : Bool :=
  match s.seq, s.cmd with
  | .idle, .present w :: _ =>
    match decode w with
    | .ok i => isConversion i
    | .error _ => false
  | _, _ => false

/-! ### Safe states -/

/-- `OE` is all clear or all set: what it is outside the configure phase of an `INIT` (R34 (b)). -/
def oeSettled (oe : Pattern) : Bool := decide (oe = 0) || decide (oe = allTerminals)

/-- What `SEQ` says about the rest of the state. (`INIT` after `k` configurations has set the `k` lowest bits of `OE`
when it is the first; `FiniRun` does not occur with `FINI_DEENERGIZE` = 0.) -/
def seqSafe (s : State) : Bool :=
  match s.seq with
  | .idle => oeSettled s.oe
  | .initRun k =>
    decide (s.oe = allTerminals) ||
      (decide (k.val < 4) && decide (s.oe = BitVec.ofNat 4 (2 ^ k.val - 1)))
  | .finiRun _ => false
  | .stepRun dir rem pos ph =>
    decide (s.oe = allTerminals) && decide (1 ≤ rem) && decide (rem ≤ 65535) &&
      (decide (ph = .energize) || patternBit s.coil ((Params.hw.order dir).get pos))
  | .respond err value =>
    oeSettled s.oe && decide (value.toNat ≤ 911) && (!err || decide (value = 0))

/-- The invariant of this hardware: the counter is 0, 1 or 2 and the state agrees with `SEQ` (R26, R34 (a), (b), (e)). -/
def State.Inv (s : State) : Prop := s.dcc ≠ 3 ∧ seqSafe s = true

/-- The steps left of the running command, its response among them (R193). -/
def State.remaining (s : State) : Nat :=
  match s.seq with
  | .idle => 0
  | .initRun k => 9 - k.val
  | .finiRun k => 5 - k.val
  | .stepRun _ rem pos .energize => 12 * (rem - 1) + (13 - 3 * pos.val)
  | .stepRun _ rem pos .dwell => 12 * (rem - 1) + (12 - 3 * pos.val)
  | .stepRun _ rem pos .deenergize => 12 * (rem - 1) + (11 - 3 * pos.val)
  | .respond _ _ => 1

end Sys2Proof.Machine
end

