-- ==== Sys2Proof/Certificates/Slice0/Obligations.lean ====
section
/-! DEFINITION. The statements for the provers. Each docstring names the rule of spec/ it formalises. `Params.hw` holds the
values this hardware takes; a statement over any `p : Params` covers the parameters the spec keeps open. -/

open Sys2Proof Sys2Proof.Machine

/-! ### Reset -/

/-- R33. The state after reset, and what the ports show in it. -/
def Obligations.ResetStateAndPorts : Prop :=
  State.reset.dcc = 1 ∧ State.reset.coil = 0b0000 ∧ State.reset.oe = 0b0000 ∧ State.reset.seq = .idle ∧
    State.reset.busy = false ∧ State.reset.cmdReady = true ∧ State.reset.rspPort = none ∧
    ∀ t, State.reset.pin t = none

/-- R180, R181, R168 (1). With `rst` high a step forces the reset state, whatever was running; nothing is emitted, no response
is given, no word is accepted, and the ports are not ready and not valid. That a waiting word still waits and that the
record stands are the model's choices (log entries 2 and 3). -/
def Obligations.ResetForcesEveryState : Prop :=
  ∀ s : State, s.rstHigh = true →
    (s.cmdReady = false ∧ s.rspPort = none) ∧
      step s = .next { s with dcc := 1, coil := 0b0000, oe := 0b0000, seq := .idle, rst := s.rst.tail }

/-! ### Decode and encode -/

/-- R85. The worked encodings of the spec decode to the commands they are the words of. -/
def Obligations.WorkedEncodingsDecode : Prop :=
  decode 0x30000384 = .ok (.setpos .cw 900) ∧ decode 0x38000384 = .ok (.setpos .ccw 900) ∧
    decode 0x40000012 = .ok (.quant 18) ∧ decode 0x40000024 = .ok (.quant 36) ∧
    decode 0x40000708 = .ok (.quant 1800) ∧ decode 0x40000E10 = .ok (.quant 3600) ∧
    decode 0x50000002 = .ok (.drive .cw 2) ∧ decode 0x58000002 = .ok (.drive .ccw 2) ∧
    decode 0x50000000 = .ok (.drive .cw 0) ∧ decode 0x10000000 = .ok .init ∧ decode 0x20000000 = .ok .fini ∧
    decode 0x60000000 = .ok .stepcw ∧ decode 0x70000000 = .ok .stepccw ∧
    ([0x00000000, 0x18000000, 0x10000001, 0x30010384, 0x48000012, 0x80000000] : List Word).map legal =
      List.replicate 6 false

/-- R71 to R75, R82. Decoding the word of a well-formed command gives the command back, for all seven commands and every
operand value the encoding admits. -/
def Obligations.DecodeOfEncode : Prop :=
  ∀ i : Instr, i.wellFormed = true → decode (encode i) = .ok i

/-- A legal word has one reading, and no bit of it is dropped: it is the word of the command it decodes to, which is well
formed. -/
def Obligations.EncodeOfDecode : Prop :=
  ∀ (w : Word) (i : Instr), decode w = .ok i → i.wellFormed = true ∧ encode i = w

/-- R76. A word is legal exactly when its masked bits match a row of the table, and at most one row matches; the decoder,
written from the fields and not from the table, accepts exactly the legal words. -/
def Obligations.DecodesExactlyTheLegalWords : Prop :=
  ∀ w : Word,
    (legal w = true ↔
      (w &&& 0xFFFFFFFF = 0x10000000 ∨ w &&& 0xFFFFFFFF = 0x20000000 ∨ w &&& 0xF7FF0000 = 0x30000000 ∨
        w &&& 0xFFFF0000 = 0x40000000 ∨ w &&& 0xF7FF0000 = 0x50000000 ∨ w &&& 0xFFFFFFFF = 0x60000000 ∨
        w &&& 0xFFFFFFFF = 0x70000000)) ∧
      (legalRows.filter fun r => r.matches w).length ≤ 1 ∧
      ((∃ i, decode w = .ok i) ↔ legal w = true)

/-- R77, first sentence, in terms of the bits: which words are illegal. -/
def Obligations.IllegalWordsByField : Prop :=
  ∀ w : Word, legal w = false ↔
    (w.toNat / 2 ^ 28 = 0 ∨ 8 ≤ w.toNat / 2 ^ 28 ∨ w.toNat / 2 ^ 16 % 2 ^ 11 ≠ 0 ∨
      (w.toNat / 2 ^ 27 % 2 = 1 ∧ w.toNat / 2 ^ 28 ∈ [1, 2, 4, 6, 7]) ∨
      (w.toNat % 2 ^ 16 ≠ 0 ∧ w.toNat / 2 ^ 28 ∈ [1, 2, 6, 7]))

/-- R78, first sentence. The layout of a response word. -/
def Obligations.ResponseWordLayout : Prop :=
  ∀ (err : Bool) (value : Half),
    (responseWord err value).getLsbD 31 = err ∧
      (∀ b, 16 ≤ b → b ≤ 30 → (responseWord err value).getLsbD b = false) ∧
      (responseWord err value).toNat % 2 ^ 16 = value.toNat

/-! ### Steps -/

/-- An idle step with a legal word at the port accepts it: the word leaves the port, one step passes at `rst`, and the rest is
`exec` of the decoded command (R80). -/
def Obligations.StepRunsTheDecodedCommand : Prop :=
  ∀ (s : State) (w : Word) (moves : List HostMove) (i : Instr),
    s.rstHigh = false → s.seq = .idle → s.cmd = .present w :: moves → decode w = .ok i →
      step s = exec i { s with cmd := moves, rst := s.rst.tail }

/-- The step from a state with a table word placed runs that word's command, from any state (the model's fetch, log entry 8). -/
def Obligations.PlacedWordRuns : Prop :=
  ∀ (s : State) (nbits w : Nat) (i : Instr), decodeTableWord nbits w = some i →
    step (s.withFetchWord nbits w) = exec i { s with seq := .idle, rst := s.rst.tail }

/-- R161. An illegal word, in any state that accepts it: the accepting step makes the error response the next thing and
changes nothing else, the response is `0x80000000`, and after the next step the block is idle again with `DCC`, `COIL`
and `OE` unchanged, nothing recorded but that response, the only event. A word with any of the sixteen `OP` values can
be illegal. This exception is the only one: no legal command is accepted into an error response, and no step at all, of a
running command or other, makes an error response the next thing but the accepting step of an illegal word. -/
def Obligations.IllegalCommandIsAnsweredAndSkipped : Prop :=
  (∀ (s : State) (w : Word) (moves : List HostMove),
    s.RstLow 2 → s.seq = .idle → s.cmd = .present w :: moves → legal w = false →
      step s = .next { s with cmd := moves, rst := s.rst.tail, seq := .respond true 0 } ∧
        State.rspPort { s with cmd := moves, rst := s.rst.tail, seq := .respond true 0 } = some 0x80000000 ∧
        run 2 s = .next (State.emitAll [.rsp true 0] { s with cmd := moves, rst := s.rst.drop 2 })) ∧
    (∀ op : BitVec 4, ∃ w : Word, opField w = op ∧ legal w = false) ∧
    (∀ (i : Instr) (s t : State), exec i s = .next t → ∀ value, t.seq ≠ .respond true value) ∧
    ∀ (s t : State) (value : Half), step s = .next t → t.seq = .respond true value →
      value = 0 ∧ s.rstHigh = false ∧ s.seq = .idle ∧ ∃ w moves, s.cmd = .present w :: moves ∧ legal w = false

/-- R81. The response step: the response word is on the port in this step and no longer after it, the event is recorded, and
the block is idle. The micro-step of `InitRun(7)` moves to `Respond(0, 1)`. -/
def Obligations.ResponseStepDelivers : Prop :=
  (∀ (s : State) (err : Bool) (value : Half), s.seq = .respond err value → s.rstHigh = false →
    s.rspPort = some (BitVec.ofBool err ++ (0 : BitVec 15) ++ value) ∧
      step s = .next { s with seq := .idle, rst := s.rst.tail, emitted := .rsp err value :: s.emitted } ∧
      ∀ t, step s = .next t → t.rspPort = none) ∧
    ∀ s : State, s.seq = .initRun 7 → s.rstHigh = false → s.oe = 0b1111 →
      ∃ t, step s = .next t ∧ t.seq = .respond false 1 ∧ t.emitted = .write .b2 false :: s.emitted

/-- R186. While a command runs the block is busy and not ready, a step neither takes nor loses a host move, and nothing but
the port itself depends on what the host presents. That holds of a step with `rst` high too: that such a step keeps the
host's waiting moves is the model's choice (log entry 2), not R186. -/
def Obligations.BusyBlockIgnoresTheHost : Prop :=
  ∀ s : State, s.seq ≠ .idle →
    (s.busy = true ∧ s.cmdReady = false) ∧
      (∀ t, step s = .next t → t.cmd = s.cmd) ∧
      ∀ moves : List HostMove,
        step { s with cmd := moves } = mapNext (fun t => { t with cmd := moves }) (step s)

/-- R51, R52, R53, R57. A step emits at most one event, and the event says all that happens to the terminals in the step:
a configuration sets one bit of `OE`, a write sets one bit of `COIL` of a configured terminal to its level, a dwell or a
response changes neither. A step without an event is an idle one: it leaves the block idle, and `DCC` as it was, exactly
when no word is presented (R26, R80; log entry 11), and otherwise accepts the word. -/
def Obligations.OneEventPerStep : Prop :=
  ∀ s t : State, s.rstHigh = false → step s = .next t →
    (t.emitted = s.emitted ∧ t.coil = s.coil ∧ t.oe = s.oe ∧ s.seq = .idle ∧
      (t.seq = .idle ↔ s.cmdValid = false) ∧ (s.cmdValid = false → t.dcc = s.dcc)) ∨
    (∃ u, t.emitted = .config u :: s.emitted ∧ t.coil = s.coil ∧ patternBit t.oe u = true ∧
      (∀ u', u' ≠ u → patternBit t.oe u' = patternBit s.oe u') ∧ t.dcc = s.dcc) ∨
    (∃ u v, t.emitted = .write u v :: s.emitted ∧ t.oe = s.oe ∧ patternBit s.oe u = true ∧
      patternBit t.coil u = v ∧ (∀ u', u' ≠ u → patternBit t.coil u' = patternBit s.coil u') ∧ t.dcc = s.dcc) ∨
    (t.emitted = .dwell :: s.emitted ∧ t.coil = s.coil ∧ t.oe = s.oe ∧ t.dcc = s.dcc) ∨
    (∃ e v, t.emitted = .rsp e v :: s.emitted ∧ t.coil = s.coil ∧ t.oe = s.oe ∧ t.dcc = s.dcc)

/-- R21, R102. Without a reset a step writes `DCC` exactly when it accepts a conversion call, and then replaces it by
`(DCC + 1) mod 3`. -/
def Obligations.OnlyConversionCallsAdvanceDcc : Prop :=
  ∀ s t : State, s.rstHigh = false → step s = .next t →
    t.dcc = if s.acceptsConversion then BitVec.ofNat 2 ((s.dcc.toNat + 1) % 3) else s.dcc

/-- R23. Without a reset no step clears a bit of `OE`, and only a running `INIT` sets one. -/
def Obligations.OnlyInitSetsOutputEnables : Prop :=
  ∀ s t : State, s.rstHigh = false → step s = .next t →
    (∀ u, patternBit s.oe u = true → patternBit t.oe u = true) ∧
      (t.oe ≠ s.oe → ∃ k : Fin 8, s.seq = .initRun k ∧ k.val < 4)

/-- R54, for levels. Nothing a step does depends on `COIL`: two states that differ only in their levels step alike, but for
the levels. -/
def Obligations.NothingReadsTheLevels : Prop :=
  ∀ (s : State) (levels : Pattern),
    mapNext (fun t => { t with coil := 0 }) (step { s with coil := levels }) =
      mapNext (fun t => { t with coil := 0 }) (step s)

/-- R54, for the output enables: apart from whether the step is refused (the precondition of R52), nothing a step does
depends on `OE`. -/
def Obligations.OutputEnablesOnlyGate : Prop :=
  ∀ (s t t' : State) (enables : Pattern), step s = .next t → step { s with oe := enables } = .next t' →
    { t with oe := 0 } = { t' with oe := 0 }

/-- R20, last sentence. The observer's record is not state the hardware can read: a step with a longer past does the same and
keeps the past. -/
def Obligations.RecordIsNotRead : Prop :=
  ∀ (s : State) (past : List Event),
    step { s with emitted := s.emitted ++ past } =
      mapNext (fun t => { t with emitted := t.emitted ++ past }) (step s)

/-! ### Accepting a command -/

/-- The frame of acceptance: when `exec` of any command answers a next state, the block was idle and is not any more; the
levels, the output enables, the ports and the record are as they were, and so is `DCC` unless the command is
`QUANT` or `SETPOS` (R21, R80: "Acceptance emits no event."). -/
def Obligations.AcceptanceFrame : Prop :=
  ∀ (i : Instr) (s t : State), exec i s = .next t →
    s.seq = .idle ∧ t.seq ≠ .idle ∧ t.coil = s.coil ∧ t.oe = s.oe ∧ t.cmd = s.cmd ∧ t.rst = s.rst ∧
      t.emitted = s.emitted ∧ (isConversion i = false → t.dcc = s.dcc)

/-- R182. From an idle state a command completes its acceptance exactly when it writes no terminal or all four are
configured; otherwise it is refused as a whole (U1), whatever `DCC` would have become. -/
def Obligations.RefusedExactlyBeforeInit : Prop :=
  ∀ (i : Instr) (s : State), s.seq = .idle →
    ((needsTerminals Params.hw s.dcc i = false ∨ s.oe = 0b1111) → ∃ t, exec i s = .next t) ∧
      (needsTerminals Params.hw s.dcc i = true → s.oe ≠ 0b1111 → exec i s = .refused .terminalsNotConfigured)

/-- R186, U11: a meaning asked for while a command runs is refused (the model's form of "a model that nevertheless has two
agents on one block refuses the second"). -/
def Obligations.SecondAgentIsRefused : Prop :=
  ∀ (i : Instr) (s : State), s.seq ≠ .idle → exec i s = .refused .commandPortBusy

/-! ### The Angle Quantizer -/

/-- R100, R101, R102, R103. `QUANT`, in every idle state and for every operand: the counter advances, the response is the
truncated count plus the correction tested on the advanced counter, and nothing else changes; the next step delivers
it as the only event. -/
def Obligations.QuantRuns : Prop :=
  ∀ (s : State) (deg : Nat), s.seq = .idle → deg < 65536 →
    ∃ (c : Counter) (value : Half), c.toNat = (s.dcc.toNat + 1) % 3 ∧
      value.toNat = 200 * deg / 3600 / 4 + (if (s.dcc.toNat + 1) % 3 = 0 then 1 else 0) ∧
      exec (.quant deg) s = .next { s with dcc := c, seq := .respond false value } ∧
      (s.RstLow 1 →
        run 1 { s with dcc := c, seq := .respond false value } =
          .next (State.emitAll [.rsp false value] { s with dcc := c, rst := s.rst.drop 1 }))

/-- R102. The counter advance, on both conversion calls, whatever the angle and the direction: 0 goes to 1 and 1 to 2 without
a correction, 2 goes to 0 with one extra sub-step, in this call only. -/
def Obligations.ConversionCallsAdvanceAndCorrect : Prop :=
  ∀ (s t : State) (dir : Dir) (deg : Nat), s.dcc ≠ 3 →
    (exec (.quant deg) s = .next t → t.seq = .respond false (BitVec.ofNat 16 (pulseCount Params.hw s.dcc deg))) ∧
    (exec (.setpos dir deg) s = .next t →
      t.seq = if pulseCount Params.hw s.dcc deg = 0 then .respond false 0
        else .stepRun dir (pulseCount Params.hw s.dcc deg) 0 .energize) ∧
    (exec (.quant deg) s = .next t ∨ exec (.setpos dir deg) s = .next t →
      t.dcc.toNat = (s.dcc.toNat + 1) % 3 ∧
      (pulseCount Params.hw s.dcc deg = rawCount Params.hw deg + if t.dcc = 0 then 1 else 0) ∧
      (t.dcc = 0 ↔ s.dcc = 2) ∧
      ((s.dcc = 0 ∧ t.dcc = 1) ∨ (s.dcc = 1 ∧ t.dcc = 2) ∨ (s.dcc = 2 ∧ t.dcc = 0)))

/-- R105. The closed form of the raw count: for this hardware `floor(arg / 72)`, and with any number of units in a degree
`floor(5 * arg / (36 * DEG_SCALE))`. -/
def Obligations.RawCountClosedForm : Prop :=
  (∀ arg : Nat, rawCount Params.hw arg = arg / 72) ∧
    ∀ scale arg : Nat, 1 ≤ scale → rawCount { Params.hw with degScale := scale } arg = 5 * arg / (36 * scale)

/-- R104. The bounds of every intermediate for a 16-bit operand, each of them reached, so that no width is exceeded; the count
fits the `VALUE` field, and the counter never becomes 3. -/
def Obligations.QuantizerNeverOverflows : Prop :=
  (∀ (dcc : Counter) (arg : Nat), arg < 65536 →
    200 * arg ≤ 13107000 ∧ 200 * arg < 2 ^ 24 ∧ 200 * arg / 3600 ≤ 3640 ∧ 200 * arg / 3600 < 2 ^ 12 ∧
      rawCount Params.hw arg = 200 * arg / 3600 / 4 ∧ rawCount Params.hw arg ≤ 910 ∧ rawCount Params.hw arg < 2 ^ 10 ∧
      pulseCount Params.hw dcc arg ≤ 911 ∧
      (BitVec.ofNat 16 (pulseCount Params.hw dcc arg)).toNat = pulseCount Params.hw dcc arg ∧
      (nextDcc Params.hw dcc).toNat < 3) ∧
    200 * 65535 = 13107000 ∧ rawCount Params.hw 65535 = 910 ∧ pulseCount Params.hw 2 65535 = 911

/-- R107. Angles below 7.2 degrees, zero among them, have a raw count of 0 and still advance the counter: `QUANT` answers 0,
or 1 on a correction call, and `SETPOS` then drives one sub-step when `DCC` was 2. -/
def Obligations.SmallAnglesAdvanceTheCounter : Prop :=
  ∀ (s : State) (dir : Dir) (deg : Nat), s.seq = .idle → deg < 72 →
    rawCount Params.hw deg = 0 ∧
      exec (.quant deg) s =
        .next { s with
          dcc := BitVec.ofNat 2 ((s.dcc.toNat + 1) % 3)
          seq := .respond false (if s.dcc = 2 then 1 else 0) } ∧
      (s.dcc = 2 → s.oe = 0b1111 →
        exec (.setpos dir deg) s = .next { s with dcc := 0, seq := .stepRun dir 1 0 .energize }) ∧
      (s.dcc ≠ 2 →
        exec (.setpos dir deg) s =
          .next { s with dcc := BitVec.ofNat 2 ((s.dcc.toNat + 1) % 3), seq := .respond false 0 })

/-- R109 (a), (b), (c). Three conversion calls with any operands bring the counter back to where it was, exactly one of them
is a correction call, and their results sum to the raw counts plus 1. -/
def Obligations.ThreeCallsOneCorrection : Prop :=
  ∀ (c : Counter) (a1 a2 a3 : Nat), c ≠ 3 →
    nextDcc Params.hw (nextDcc Params.hw (nextDcc Params.hw c)) = c ∧
      pulseCount Params.hw c a1 + pulseCount Params.hw (nextDcc Params.hw c) a2 +
          pulseCount Params.hw (nextDcc Params.hw (nextDcc Params.hw c)) a3 =
        a1 / 72 + a2 / 72 + a3 / 72 + 1

/-- R108. From reset, with any list of `QUANT` words presented: after two steps a word, call `k` (the first is 1) has answered
`floor(arg / 72)`, and one more exactly when `k mod 3 = 2`; `DCC` is `(1 + k) mod 3` after the last, and nothing else has
happened. -/
def Obligations.QuantCadenceFromReset : Prop :=
  ∀ angles : List Nat, (∀ a ∈ angles, a < 65536) →
    ∃ t, run (2 * angles.length) { State.reset with cmd := angles.map fun a => .present (encode (.quant a)) } = .next t ∧
      t.trace =
        angles.mapIdx (fun j a => .rsp false (BitVec.ofNat 16 (a / 72 + if (j + 1) % 3 = 2 then 1 else 0))) ∧
      t.dcc.toNat = (1 + angles.length) % 3 ∧ t.coil = 0 ∧ t.oe = 0 ∧ t.seq = .idle ∧ t.cmd = []

/-! ### The Phase Sequencer -/

/-- R120. The two orders as terminal indices, and that each is the other's mirror. -/
def Obligations.VisitingOrdersMirror : Prop :=
  ([0, 1, 2, 3].map fun j => ((Params.hw.order .cw).get j).idx) = [0, 2, 1, 3] ∧
    ([0, 1, 2, 3].map fun j => ((Params.hw.order .ccw).get j).idx) = [3, 1, 2, 0] ∧
    ∀ j : Fin 4, (Params.hw.order .ccw).get j = (Params.hw.order .cw).get (3 - j)

/-- R121, R122. `STEPCW` with the terminals configured: acceptance, then the twelve events of one clockwise sub-step and the
response, one a step; all terminals are low at the end, whatever they were, and `DCC` and `OE` are as before. With
some terminal not configured it is refused (U1). -/
def Obligations.StepcwRuns : Prop :=
  ∀ s : State, s.seq = .idle →
    (s.oe = 0b1111 →
      exec .stepcw s = .next { s with seq := .stepRun .cw 1 0 .energize } ∧
      (s.RstLow 13 →
        run 13 { s with seq := .stepRun .cw 1 0 .energize } =
          .next (State.emitAll
            [.write .a1 true, .dwell, .write .a1 false, .write .b1 true, .dwell, .write .b1 false,
              .write .a2 true, .dwell, .write .a2 false, .write .b2 true, .dwell, .write .b2 false, .rsp false 0]
            { s with coil := 0b0000, rst := s.rst.drop 13 }))) ∧
      (s.oe ≠ 0b1111 → exec .stepcw s = .refused .terminalsNotConfigured)

/-- R121, R123. `STEPCCW`: the same in the mirror order. -/
def Obligations.StepccwRuns : Prop :=
  ∀ s : State, s.seq = .idle →
    (s.oe = 0b1111 →
      exec .stepccw s = .next { s with seq := .stepRun .ccw 1 0 .energize } ∧
      (s.RstLow 13 →
        run 13 { s with seq := .stepRun .ccw 1 0 .energize } =
          .next (State.emitAll
            [.write .b2 true, .dwell, .write .b2 false, .write .a2 true, .dwell, .write .a2 false,
              .write .b1 true, .dwell, .write .b1 false, .write .a1 true, .dwell, .write .a1 false, .rsp false 0]
            { s with coil := 0b0000, rst := s.rst.drop 13 }))) ∧
      (s.oe ≠ 0b1111 → exec .stepccw s = .refused .terminalsNotConfigured)

/-- R133. The `COIL` column of the pattern tables: the levels after each of the twelve events of one sub-step, clockwise and
counter-clockwise, from all low and from the resting pattern. -/
def Obligations.SubStepPatternTables : Prop :=
  ∀ s : State, s.oe = 0b1111 → s.RstLow 12 →
    let levelsOf (dir : Dir) (start : Pattern) : List (Option Pattern) :=
      (List.range 12).map fun k =>
        (nextState? (run (k + 1) { s with coil := start, seq := .stepRun dir 1 0 .energize })).map State.coil
    levelsOf .cw 0b0000 =
        [0b0001, 0b0001, 0b0000, 0b0100, 0b0100, 0b0000, 0b0010, 0b0010, 0b0000, 0b1000, 0b1000, 0b0000].map some ∧
      levelsOf .ccw 0b0000 =
        [0b1000, 0b1000, 0b0000, 0b0010, 0b0010, 0b0000, 0b0100, 0b0100, 0b0000, 0b0001, 0b0001, 0b0000].map some ∧
      levelsOf .cw 0b0101 =
        [0b0101, 0b0101, 0b0100, 0b0100, 0b0100, 0b0000, 0b0010, 0b0010, 0b0000, 0b1000, 0b1000, 0b0000].map some ∧
      levelsOf .ccw 0b0101 =
        [0b1101, 0b1101, 0b0101, 0b0111, 0b0111, 0b0101, 0b0101, 0b0101, 0b0001, 0b0001, 0b0001, 0b0000].map some

/-- R124. `DRIVE dir, n`. With `n = 0` the response is the only event and `OE` is not consulted; with `n >= 1` and the
terminals configured, `n` sub-steps (`8 n` writes and `4 n` dwells) and the response take `12 n + 1` steps after the
accepting one and leave all terminals low, `DCC` and `OE` as before; otherwise the command is refused (U1). -/
def Obligations.DriveRuns : Prop :=
  ∀ (s : State) (dir : Dir) (n : Nat), s.seq = .idle →
    (n = 0 →
      exec (.drive dir n) s = .next { s with seq := .respond false 0 } ∧
      (s.RstLow 1 →
        run 1 { s with seq := .respond false 0 } =
          .next (State.emitAll [.rsp false 0] { s with rst := s.rst.drop 1 }))) ∧
    (1 ≤ n → s.oe = 0b1111 →
      exec (.drive dir n) s = .next { s with seq := .stepRun dir n 0 .energize } ∧
      (s.RstLow (12 * n + 1) →
        run (12 * n + 1) { s with seq := .stepRun dir n 0 .energize } =
          .next (State.emitAll (driveEvents Params.hw dir n ++ [.rsp false 0])
            { s with coil := 0b0000, rst := s.rst.drop (12 * n + 1) })) ∧
      (driveEvents Params.hw dir n).countP Event.isWrite = 8 * n ∧
      (driveEvents Params.hw dir n).count .dwell = 4 * n) ∧
    (1 ≤ n → s.oe ≠ 0b1111 → exec (.drive dir n) s = .refused .terminalsNotConfigured)

/-- R126, R127. `INIT`, in every idle state, the first one or a later one: nine events in nine steps after the accepting one;
`OE` is all set and `COIL` is the resting pattern, so that A1 and B1 drive high and A2 and B2 low; `DCC` is as before. -/
def Obligations.InitRuns : Prop :=
  ∀ s : State, s.seq = .idle →
    exec .init s = .next { s with seq := .initRun 0 } ∧
    (s.RstLow 9 →
      ∃ t, run 9 { s with seq := .initRun 0 } = .next t ∧
        t = State.emitAll
          [.config .a1, .config .a2, .config .b1, .config .b2,
            .write .a1 true, .write .a2 false, .write .b1 true, .write .b2 false, .rsp false 1]
          { s with oe := 0b1111, coil := 0b0101, rst := s.rst.drop 9 } ∧
        t.pin .a1 = some true ∧ t.pin .a2 = some false ∧ t.pin .b1 = some true ∧ t.pin .b2 = some false)

/-- R129, for the value this hardware takes. `FINI`, in every idle state: its response is the only event and nothing else
changes, so that later commands behave as if it had not been issued. -/
def Obligations.FiniRuns : Prop :=
  ∀ s : State, s.seq = .idle →
    exec .fini s = .next { s with seq := .respond false 0 } ∧
    (s.RstLow 1 →
      run 1 { s with seq := .respond false 0 } =
        .next (State.emitAll [.rsp false 0] { s with rst := s.rst.drop 1 }))

/-- R129, R130, for the documented option. With `FINI_DEENERGIZE` = 1 (and any other parameters) `FINI` writes the four
terminals low in index order and responds; `OE` and `DCC` are unchanged, and it needs the terminals configured. -/
def Obligations.FiniOptionDeenergizes : Prop :=
  ∀ (p : Params) (s : State), p.finiDeenergize = true → s.seq = .idle →
    (s.oe = 0b1111 →
      acceptInstr p .fini s = .next { s with seq := .finiRun 0 } ∧
      (s.RstLow 5 →
        runWith p 5 { s with seq := .finiRun 0 } =
          .next (State.emitAll
            [.write .a1 false, .write .a2 false, .write .b1 false, .write .b2 false, .rsp false 0]
            { s with coil := 0b0000, rst := s.rst.drop 5 }))) ∧
    (s.oe ≠ 0b1111 → acceptInstr p .fini s = .refused .terminalsNotConfigured)

/-- E7, R127. From any idle state, `INIT` and then `FINI` presented: twelve steps, the nine events of `INIT` and the response
of `FINI`, hence no write beyond the four of the resting pattern. -/
def Obligations.InitThenFiniWritesOnlyTheRestingPattern : Prop :=
  ∀ s : State, s.seq = .idle → s.cmd = [.present 0x10000000, .present 0x20000000] → s.RstLow 12 →
    run 12 s =
        .next (State.emitAll (initEvents Params.hw ++ [.rsp false 1, .rsp false 0])
          { s with oe := 0b1111, coil := 0b0101, cmd := [], rst := s.rst.drop 12 }) ∧
      (initEvents Params.hw ++ [Event.rsp false 1, Event.rsp false 0]).countP Event.isWrite = 4

/-- R131 (a), for any parameters that meet R15 and whose orders visit every terminal (log entry 6): the events of a
counter-clockwise drive are the clockwise ones read backwards with the levels exchanged. -/
def Obligations.DriveTracesMirror : Prop :=
  ∀ (p : Params) (n : Nat), p.valid = true →
    driveEvents p .ccw n = mirrorEvents (driveEvents p .cw n) ∧
      driveEvents p .cw n = mirrorEvents (driveEvents p .ccw n)

/-- R131 (b), (c). From all-low terminals the levels of a drive in one direction are those of the drive in the other direction
in reverse: after `j` of its `12 n` events the one shows what the other shows after `12 n - j`. -/
def Obligations.DrivePatternsRetrace : Prop :=
  ∀ (s : State) (dir dir' : Dir) (n j : Nat), 1 ≤ n → j ≤ 12 * n → dir' ≠ dir → s.oe = 0b1111 → s.coil = 0b0000 →
    s.RstLow (12 * n) →
      ∃ t t', run j { s with seq := .stepRun dir n 0 .energize } = .next t ∧
        run (12 * n - j) { s with seq := .stepRun dir' n 0 .energize } = .next t' ∧ t.coil = t'.coil

/-- R125, R196. The nominal durations: `4 * n * DWELL_MS` for a drive with any parameters that meet R15 and log entry 6,
which is 20 ms for each sub-step of this hardware, and no dwell in the commands that drive nothing. -/
def Obligations.NominalDurations : Prop :=
  (∀ (p : Params) (dir : Dir) (n : Nat), p.valid = true → nominalMs p (driveEvents p dir n) = 4 * n * p.dwellMs) ∧
    (∀ (dir : Dir) (n : Nat), nominalMs Params.hw (driveEvents Params.hw dir n) = 20 * n) ∧
    ∀ (c : Counter) (deg : Nat),
      nominalMs Params.hw (commandEvents Params.hw c .init) = 0 ∧
        nominalMs Params.hw (commandEvents Params.hw c .fini) = 0 ∧
        nominalMs Params.hw (commandEvents Params.hw c (.quant deg)) = 0

/-! ### The combined entry point -/

/-- R150. `SETPOS dir, deg`: the counter advances once in the accepting step; with a count `n` of 0 only the response
follows; with `n >= 1` and the terminals configured, `n` sub-steps and the response, which carries 0 and not `n`; with
`n >= 1` and some terminal not configured the command is refused as a whole. The direction has no influence on `n` or on
`DCC`. -/
def Obligations.SetposRuns : Prop :=
  ∀ (s : State) (dir : Dir) (deg n : Nat), s.seq = .idle →
    n = 200 * deg / 3600 / 4 + (if (s.dcc.toNat + 1) % 3 = 0 then 1 else 0) →
    ∃ c : Counter, c.toNat = (s.dcc.toNat + 1) % 3 ∧
    (n = 0 →
      exec (.setpos dir deg) s = .next { s with dcc := c, seq := .respond false 0 } ∧
      (s.RstLow 1 →
        run 1 { s with dcc := c, seq := .respond false 0 } =
          .next (State.emitAll [.rsp false 0] { s with dcc := c, rst := s.rst.drop 1 }))) ∧
    (1 ≤ n → s.oe = 0b1111 →
      exec (.setpos dir deg) s = .next { s with dcc := c, seq := .stepRun dir n 0 .energize } ∧
      (s.RstLow (12 * n + 1) →
        run (12 * n + 1) { s with dcc := c, seq := .stepRun dir n 0 .energize } =
          .next (State.emitAll (driveEvents Params.hw dir n ++ [.rsp false 0])
            { s with dcc := c, coil := 0b0000, rst := s.rst.drop (12 * n + 1) }))) ∧
    (1 ≤ n → s.oe ≠ 0b1111 → exec (.setpos dir deg) s = .refused .terminalsNotConfigured)

/-- R151. `SETPOS dir, deg` has the same events, responses apart, and the same final `DCC`, `COIL` and `OE` as `QUANT deg`
answered with `n` and then `DRIVE dir, n`: in every idle state when `n` is 0, and with the terminals configured
otherwise (without them `SETPOS` is refused, and so is the `DRIVE` of the pair: U1). -/
def Obligations.SetposIsQuantThenDrive : Prop :=
  ∀ (s : State) (dir : Dir) (deg n : Nat), s.seq = .idle → (n = 0 ∨ s.oe = 0b1111) → s.rst = [] → deg < 65536 →
    n = pulseCount Params.hw s.dcc deg →
    ∃ k k' t t',
      run k { s with cmd := [.present (encode (.setpos dir deg))] } = .next t ∧
      run k' { s with cmd := [.present (encode (.quant deg)), .present (encode (.drive dir n))] } = .next t' ∧
      t.seq = .idle ∧ t'.seq = .idle ∧ t.cmd = [] ∧ t'.cmd = [] ∧
      t.dcc = t'.dcc ∧ t.coil = t'.coil ∧ t.oe = t'.oe ∧
      t.trace = s.trace ++ driveEvents Params.hw dir n ++ [.rsp false 0] ∧
      t'.trace = s.trace ++ [.rsp false (BitVec.ofNat 16 n)] ++ driveEvents Params.hw dir n ++ [.rsp false 0]

/-- R152. With the counter as reset and `INIT` leave it, the k-th of any list of `SETPOS` commands drives `floor(ARG / 72)`
sub-steps in its direction, and one more exactly when `k mod 3 = 2`. -/
def Obligations.SetposCadence : Prop :=
  ∀ (s : State) (requests : List (Dir × Nat)), s.seq = .idle → s.oe = 0b1111 → s.rst = [] → s.dcc = 1 →
    (∀ r ∈ requests, r.2 < 65536) →
    ∃ k t, run k { s with cmd := requests.map fun r => .present (encode (.setpos r.1 r.2)) } = .next t ∧
      t.seq = .idle ∧ t.cmd = [] ∧ t.oe = s.oe ∧
      t.dcc.toNat = (1 + requests.length) % 3 ∧
      t.trace =
        s.trace ++
          (requests.mapIdx fun j r =>
            driveEvents Params.hw r.1 (r.2 / 72 + if (j + 1) % 3 = 2 then 1 else 0) ++ [.rsp false 0]).flatten

/-! ### The whole machine -/

/-- Every command, for any parameters that meet R15 and whose orders visit every terminal once (DEDUCED, log entry 6: more
than R15 itself asks), from any idle state in which its terminals are configured if it needs them: it is accepted, and
after one step for each of its events the state is what its command-level view gives. (A refinement: the micro-steps of
R26, R80, R81, R121, R126, R129 do what the command-level pseudocode says.) -/
def Obligations.MicroStepsRefineTheCommandView : Prop :=
  ∀ (p : Params) (i : Instr) (s : State), p.valid = true → s.seq = .idle →
    (needsTerminals p s.dcc i = true → s.oe = allTerminals) →
    ∃ t, acceptInstr p i s = .next t ∧
      (s.RstLow (commandSteps p s.dcc i) →
        runWith p (commandSteps p s.dcc i) t =
          .next (State.later (commandSteps p s.dcc i) (afterCommand p i s)))

/-- This hardware is the block with the parameter values of R7: its step, which goes through `exec`, is the step with those
parameters. -/
def Obligations.StepHasTheHardwareParameters : Prop :=
  ∀ s : State, step s = stepWith Params.hw s

/-- Reset meets the invariant (R33, R34). -/
def Obligations.ResetMeetsTheInvariant : Prop :=
  State.reset.Inv

/-- R34 (a), (b), (e). Every step keeps the invariant: `DCC` is 0, 1 or 2; `OE` is clear, full, or in the configure phase of a
first `INIT`; a running step command has its terminals configured, at least one sub-step left, and its terminal energized
between its two writes. -/
def Obligations.StepsKeepTheInvariant : Prop :=
  ∀ s t : State, s.Inv → step s = .next t → t.Inv

/-- R162, R193. In a state that meets the invariant a step is refused in one case only, U1: an idle block, `rst` low, and the
word presented is of a command that would write a terminal while not all are configured. No step faults. -/
def Obligations.OnlyAnEarlyTerminalWriteIsRefused : Prop :=
  ∀ s : State, s.Inv →
    (∀ f, step s ≠ .fault f) ∧
    ∀ r, step s = .refused r ↔
      r = .terminalsNotConfigured ∧ s.rstHigh = false ∧ s.seq = .idle ∧ s.oe ≠ 0b1111 ∧
        ∃ w moves i, s.cmd = .present w :: moves ∧ decode w = .ok i ∧ needsTerminals Params.hw s.dcc i = true

/-- R193. A running command gets nearer to its end with every step: the steps left fall by one, until the block is idle. -/
def Obligations.RunningCommandsCountDown : Prop :=
  ∀ s : State, s.Inv → s.rstHigh = false → s.seq ≠ .idle →
    ∃ t, step s = .next t ∧ t.remaining + 1 = s.remaining ∧ (t.seq = .idle ↔ t.remaining = 0)

/-- R188, R193, R194. Any finite list of words, legal or not, presented to an initialised idle block is carried out in
finitely many steps: every word is answered by exactly one response, the block is idle and initialised at the end, and
`DCC` has advanced modulo 3 by the number of conversion calls in the list, and by nothing else. -/
def Obligations.FiniteCommandListsFinish : Prop :=
  ∀ (words : List Word) (s : State), s.dcc ≠ 3 → s.seq = .idle → s.oe = 0b1111 → s.rst = [] →
    s.cmd = words.map HostMove.present →
    ∃ k t, run k s = .next t ∧ t.seq = .idle ∧ t.cmd = [] ∧ t.oe = 0b1111 ∧
      t.dcc.toNat = (s.dcc.toNat + conversionCount words) % 3 ∧
      t.trace.countP Event.isRsp = s.trace.countP Event.isRsp + words.length

/-- R26, R80. An idle block with `rst` low and no word presented stays as it is: a step only lets a pause of the host, if one
is next, and one level of `rst` pass (log entries 1, 2 and 11). -/
def Obligations.IdleBlockWaits : Prop :=
  ∀ s : State, s.rstHigh = false → s.seq = .idle → s.cmdValid = false →
    step s = .next { s with cmd := s.cmd.tail, rst := s.rst.tail }
end

