-- ==== Sys2Proof/Laws/Decode.lean ====
section
/-! SUPPORT. The fields of an assembled word, and what a word that decodes looks like. -/

namespace Sys2Proof

@[simp] theorem opField_assemble (op : BitVec 4) (d : Bool) (a : Half) : opField (assemble op d a) = op := by
  unfold opField assemble
  ext i hi
  simp only [BitVec.getElem_extractLsb', BitVec.getLsbD_append]
  have h0 : ¬ 28 + i < 16 := by omega
  have h1 : ¬ 28 + i - 16 < 11 := by omega
  have h2 : ¬ 28 + i - 16 - 11 < 1 := by omega
  have h3 : 28 + i - 16 - 11 - 1 = i := by omega
  simp [h0, h1, h2, h3, hi]

@[simp] theorem dirField_assemble (op : BitVec 4) (d : Bool) (a : Half) : dirField (assemble op d a) = d := by
  unfold dirField assemble
  rw [BitVec.getLsbD_append, BitVec.getLsbD_append, BitVec.getLsbD_append]
  simp

@[simp] theorem rsvField_assemble (op : BitVec 4) (d : Bool) (a : Half) : rsvField (assemble op d a) = 0 := by
  unfold rsvField assemble
  ext i hi
  simp only [BitVec.getElem_extractLsb', BitVec.getLsbD_append]
  have h0 : ¬ 16 + i < 16 := by omega
  have h1 : 16 + i - 16 < 11 := by omega
  simp [h0, hi]

@[simp] theorem argField_assemble (op : BitVec 4) (d : Bool) (a : Half) : argField (assemble op d a) = a := by
  unfold argField assemble
  ext i hi
  simp only [BitVec.getElem_extractLsb', BitVec.getLsbD_append]
  have h0 : 0 + i < 16 := by omega
  simp [hi]

@[simp] theorem dirOfBit_bitOfDir (d : Dir) : dirOfBit (bitOfDir d) = d := by
  cases d <;> rfl

@[simp] theorem bitOfDir_dirOfBit (b : Bool) : bitOfDir (dirOfBit b) = b := by
  cases b <;> rfl

/-- A word is its fields: with `RSV` zero it is assembled from the other three. -/
theorem assemble_fields {w : Word} (h : rsvField w = 0) : assemble (opField w) (dirField w) (argField w) = w := by
  have hr : ∀ b, 16 ≤ b → b < 27 → w.getLsbD b = false := by
    intro b hl hu
    have := congrArg (fun v : BitVec 11 => v.getLsbD (b - 16)) h
    have hb : 16 + (b - 16) = b := by omega
    have hw : b - 16 < 11 := by omega
    simpa [rsvField, BitVec.getLsbD_extractLsb', hb, hw] using this
  apply BitVec.eq_of_getLsbD_eq
  intro i hi
  unfold assemble opField dirField argField
  simp only [BitVec.getLsbD_append, BitVec.getLsbD_extractLsb']
  by_cases h0 : i < 16
  · simp [h0]
  · by_cases h1 : i < 27
    · have hw : i - 16 < 11 := by omega
      simp [h0, hw, hr i (by omega) h1]
    · have hw : ¬ i - 16 < 11 := by omega
      by_cases h2 : i < 28
      · have hi' : i = 27 := by omega
        subst hi'
        simp
      · have h3 : ¬ i - 16 - 11 < 1 := by omega
        have h4 : 28 + (i - 16 - 11 - 1) = i := by omega
        have h5 : i - 16 - 11 - 1 < 4 := by omega
        simp only [h0, hw, h3, h4, h5, if_false]
        simp

/-- The operands a command without operands leaves: both fields zero. -/
theorem takeNone_eq_ok {w : Word} {i j : Instr} (h : takeNone w i = .ok j) :
    dirField w = false ∧ argField w = 0 ∧ j = i := by
  unfold takeNone at h
  split at h
  · cases h
  · split at h
    · cases h
    · injection h with h
      exact ⟨by simpa using ‹¬ dirField w = true›, by simpa using ‹¬ argField w ≠ 0›, h.symm⟩

/-- The operand of a command with `ARG` only. -/
theorem takeArg_eq_ok {w : Word} {f : Nat → Instr} {j : Instr} (h : takeArg w f = .ok j) :
    dirField w = false ∧ j = f (argField w).toNat := by
  unfold takeArg at h
  split at h
  · cases h
  · injection h with h
    exact ⟨by simpa using ‹¬ dirField w = true›, h.symm⟩

/-- A decoded command is well formed: an operand comes from a 16-bit field. -/
theorem decode_wellFormed {w : Word} {i : Instr} (h : decode w = .ok i) : i.wellFormed = true := by
  have ha : (argField w).toNat < 65536 := (argField w).isLt
  unfold decode at h
  repeat' split at h
  all_goals first
    | cases h; done
    | (have := (takeNone_eq_ok h).2.2; subst this; rfl)
    | (have := (takeArg_eq_ok h).2; subst this; simpa [Instr.wellFormed, argFits] using ha)
    | (simp only [takeDirArg] at h; injection h with h; subst h; simpa [Instr.wellFormed, argFits] using ha)

end Sys2Proof
end

