-- ==== Sys2Proof/Laws/State.lean ====
section
/-! SUPPORT. What each update of the state does to each field: one lemma for each field and update, so that no proof has to
unfold a record update. Then one terminal's bit of a pattern, and the trace after an emission. -/

namespace Sys2Proof.Machine

@[simp] theorem emit_dcc (s : State) (e : Event) : (s.emit e).dcc = s.dcc := rfl
@[simp] theorem emit_coil (s : State) (e : Event) : (s.emit e).coil = s.coil := rfl
@[simp] theorem emit_oe (s : State) (e : Event) : (s.emit e).oe = s.oe := rfl
@[simp] theorem emit_seq (s : State) (e : Event) : (s.emit e).seq = s.seq := rfl
@[simp] theorem emit_cmd (s : State) (e : Event) : (s.emit e).cmd = s.cmd := rfl
@[simp] theorem emit_rst (s : State) (e : Event) : (s.emit e).rst = s.rst := rfl
@[simp] theorem emit_emitted (s : State) (e : Event) : (s.emit e).emitted = e :: s.emitted := rfl

@[simp] theorem tick_dcc (s : State) : s.tick.dcc = s.dcc := rfl
@[simp] theorem tick_coil (s : State) : s.tick.coil = s.coil := rfl
@[simp] theorem tick_oe (s : State) : s.tick.oe = s.oe := rfl
@[simp] theorem tick_seq (s : State) : s.tick.seq = s.seq := rfl
@[simp] theorem tick_cmd (s : State) : s.tick.cmd = s.cmd := rfl
@[simp] theorem tick_rst (s : State) : s.tick.rst = s.rst.tail := rfl
@[simp] theorem tick_emitted (s : State) : s.tick.emitted = s.emitted := rfl

@[simp] theorem cfgOut_dcc (t : Terminal) (s : State) : (cfgOut t s).dcc = s.dcc := rfl
@[simp] theorem cfgOut_coil (t : Terminal) (s : State) : (cfgOut t s).coil = s.coil := rfl
@[simp] theorem cfgOut_oe (t : Terminal) (s : State) : (cfgOut t s).oe = patternWith s.oe t true := rfl
@[simp] theorem cfgOut_seq (t : Terminal) (s : State) : (cfgOut t s).seq = s.seq := rfl
@[simp] theorem cfgOut_cmd (t : Terminal) (s : State) : (cfgOut t s).cmd = s.cmd := rfl
@[simp] theorem cfgOut_rst (t : Terminal) (s : State) : (cfgOut t s).rst = s.rst := rfl
@[simp] theorem cfgOut_emitted (t : Terminal) (s : State) : (cfgOut t s).emitted = .config t :: s.emitted := rfl

@[simp] theorem dwell_dcc (s : State) : (dwell s).dcc = s.dcc := rfl
@[simp] theorem dwell_coil (s : State) : (dwell s).coil = s.coil := rfl
@[simp] theorem dwell_oe (s : State) : (dwell s).oe = s.oe := rfl
@[simp] theorem dwell_seq (s : State) : (dwell s).seq = s.seq := rfl
@[simp] theorem dwell_cmd (s : State) : (dwell s).cmd = s.cmd := rfl
@[simp] theorem dwell_rst (s : State) : (dwell s).rst = s.rst := rfl
@[simp] theorem dwell_emitted (s : State) : (dwell s).emitted = .dwell :: s.emitted := rfl

@[simp] theorem respond_dcc (err : Bool) (value : Half) (s : State) : (respond err value s).dcc = s.dcc := rfl
@[simp] theorem respond_coil (err : Bool) (value : Half) (s : State) : (respond err value s).coil = s.coil := rfl
@[simp] theorem respond_oe (err : Bool) (value : Half) (s : State) : (respond err value s).oe = s.oe := rfl
@[simp] theorem respond_seq (err : Bool) (value : Half) (s : State) : (respond err value s).seq = .respond err value := rfl
@[simp] theorem respond_cmd (err : Bool) (value : Half) (s : State) : (respond err value s).cmd = s.cmd := rfl
@[simp] theorem respond_rst (err : Bool) (value : Half) (s : State) : (respond err value s).rst = s.rst := rfl
@[simp] theorem respond_emitted (err : Bool) (value : Half) (s : State) : (respond err value s).emitted = s.emitted := rfl

@[simp] theorem raiseIllegalCommand_dcc (s : State) : (raiseIllegalCommand s).dcc = s.dcc := rfl
@[simp] theorem raiseIllegalCommand_coil (s : State) : (raiseIllegalCommand s).coil = s.coil := rfl
@[simp] theorem raiseIllegalCommand_oe (s : State) : (raiseIllegalCommand s).oe = s.oe := rfl
@[simp] theorem raiseIllegalCommand_seq (s : State) : (raiseIllegalCommand s).seq = .respond true 0 := rfl
@[simp] theorem raiseIllegalCommand_cmd (s : State) : (raiseIllegalCommand s).cmd = s.cmd := rfl
@[simp] theorem raiseIllegalCommand_rst (s : State) : (raiseIllegalCommand s).rst = s.rst := rfl
@[simp] theorem raiseIllegalCommand_emitted (s : State) : (raiseIllegalCommand s).emitted = s.emitted := rfl

@[simp] theorem deliverResponse_dcc (err : Bool) (value : Half) (s : State) : (deliverResponse err value s).dcc = s.dcc := rfl
@[simp] theorem deliverResponse_coil (err : Bool) (value : Half) (s : State) : (deliverResponse err value s).coil = s.coil := rfl
@[simp] theorem deliverResponse_oe (err : Bool) (value : Half) (s : State) : (deliverResponse err value s).oe = s.oe := rfl
@[simp] theorem deliverResponse_seq (err : Bool) (value : Half) (s : State) : (deliverResponse err value s).seq = .idle := rfl
@[simp] theorem deliverResponse_cmd (err : Bool) (value : Half) (s : State) : (deliverResponse err value s).cmd = s.cmd := rfl
@[simp] theorem deliverResponse_rst (err : Bool) (value : Half) (s : State) : (deliverResponse err value s).rst = s.rst := rfl
@[simp] theorem deliverResponse_emitted (err : Bool) (value : Half) (s : State) : (deliverResponse err value s).emitted = .rsp err value :: s.emitted := rfl

@[simp] theorem forceReset_dcc (p : Params) (s : State) : (forceReset p s).dcc = p.dccInit := rfl
@[simp] theorem forceReset_coil (p : Params) (s : State) : (forceReset p s).coil = 0 := rfl
@[simp] theorem forceReset_oe (p : Params) (s : State) : (forceReset p s).oe = 0 := rfl
@[simp] theorem forceReset_seq (p : Params) (s : State) : (forceReset p s).seq = .idle := rfl
@[simp] theorem forceReset_cmd (p : Params) (s : State) : (forceReset p s).cmd = s.cmd := rfl
@[simp] theorem forceReset_rst (p : Params) (s : State) : (forceReset p s).rst = s.rst := rfl
@[simp] theorem forceReset_emitted (p : Params) (s : State) : (forceReset p s).emitted = s.emitted := rfl

@[simp] theorem advanceDcc_dcc (p : Params) (s : State) : (advanceDcc p s).dcc = nextDcc p s.dcc := rfl
@[simp] theorem advanceDcc_coil (p : Params) (s : State) : (advanceDcc p s).coil = s.coil := rfl
@[simp] theorem advanceDcc_oe (p : Params) (s : State) : (advanceDcc p s).oe = s.oe := rfl
@[simp] theorem advanceDcc_seq (p : Params) (s : State) : (advanceDcc p s).seq = s.seq := rfl
@[simp] theorem advanceDcc_cmd (p : Params) (s : State) : (advanceDcc p s).cmd = s.cmd := rfl
@[simp] theorem advanceDcc_rst (p : Params) (s : State) : (advanceDcc p s).rst = s.rst := rfl
@[simp] theorem advanceDcc_emitted (p : Params) (s : State) : (advanceDcc p s).emitted = s.emitted := rfl

@[simp] theorem emitAll_dcc (events : List Event) (s : State) : (s.emitAll events).dcc = s.dcc := rfl
@[simp] theorem emitAll_coil (events : List Event) (s : State) : (s.emitAll events).coil = s.coil := rfl
@[simp] theorem emitAll_oe (events : List Event) (s : State) : (s.emitAll events).oe = s.oe := rfl
@[simp] theorem emitAll_seq (events : List Event) (s : State) : (s.emitAll events).seq = s.seq := rfl
@[simp] theorem emitAll_cmd (events : List Event) (s : State) : (s.emitAll events).cmd = s.cmd := rfl
@[simp] theorem emitAll_rst (events : List Event) (s : State) : (s.emitAll events).rst = s.rst := rfl
@[simp] theorem emitAll_emitted (events : List Event) (s : State) : (s.emitAll events).emitted = events.reverse ++ s.emitted := rfl

@[simp] theorem later_dcc (k : Nat) (s : State) : (s.later k).dcc = s.dcc := rfl
@[simp] theorem later_coil (k : Nat) (s : State) : (s.later k).coil = s.coil := rfl
@[simp] theorem later_oe (k : Nat) (s : State) : (s.later k).oe = s.oe := rfl
@[simp] theorem later_seq (k : Nat) (s : State) : (s.later k).seq = s.seq := rfl
@[simp] theorem later_cmd (k : Nat) (s : State) : (s.later k).cmd = s.cmd := rfl
@[simp] theorem later_rst (k : Nat) (s : State) : (s.later k).rst = s.rst.drop k := rfl
@[simp] theorem later_emitted (k : Nat) (s : State) : (s.later k).emitted = s.emitted := rfl

/-- One bit of a pattern with one terminal's bit set to a level: that terminal's is the level, the others are kept. -/
@[simp] theorem patternBit_patternWith (v : Pattern) (t u : Terminal) (level : Bool) :
    patternBit (patternWith v t level) u = if u = t then level else patternBit v u := by
  revert v level
  cases t <;> cases u <;> decide

/-- Two patterns with the same bit at every terminal are equal. -/
theorem pattern_ext {v w : Pattern} (h : ∀ u, patternBit v u = patternBit w u) : v = w := by
  have key : ∀ v w : Pattern, patternBit v .a1 = patternBit w .a1 → patternBit v .a2 = patternBit w .a2 →
      patternBit v .b1 = patternBit w .b1 → patternBit v .b2 = patternBit w .b2 → v = w := by decide
  exact key v w (h .a1) (h .a2) (h .b1) (h .b2)

/-- With all terminals configured every terminal is. -/
@[simp] theorem patternBit_allTerminals (t : Terminal) : patternBit allTerminals t = true := by
  cases t <;> decide

/-- The trace grows at its end. -/
@[simp] theorem trace_emit (s : State) (e : Event) : (s.emit e).trace = s.trace ++ [e] := by
  simp [State.trace]

/-- The trace grows at its end by the events recorded, in their order. -/
@[simp] theorem trace_emitAll (s : State) (events : List Event) :
    (s.emitAll events).trace = s.trace ++ events := by
  simp [State.trace]

/-- Recording one list and then another is recording both. -/
theorem emitAll_append (s : State) (first second : List Event) :
    s.emitAll (first ++ second) = (s.emitAll first).emitAll second := by
  simp [State.emitAll]

end Sys2Proof.Machine
end

