-- ==== Sys2Proof/Laws/Ops.lean ====
section
/-! SUPPORT. What each shared operation can do, once: the terminal write, the acceptance guard, the start of a drive, the
counter and the raw count. -/

namespace Sys2Proof.Machine

/-- A terminal write that answers a next state wrote a configured terminal, one bit of `COIL`, and one event. -/
theorem termWrite_eq_next {t : Terminal} {v : Bool} {s s' : State} (h : termWrite t v s = .next s') :
    patternBit s.oe t = true ∧
      s' = State.emit { s with coil := patternWith s.coil t v } (.write t v) := by
  unfold termWrite at h
  split at h
  · exact ⟨‹_›, by injection h with h; exact h.symm⟩
  · cases h

/-- With the terminal configured a write completes. -/
theorem termWrite_configured {t : Terminal} {s : State} (v : Bool) (h : patternBit s.oe t = true) :
    termWrite t v s = .next (State.emit { s with coil := patternWith s.coil t v } (.write t v)) := by
  simp [termWrite, h]

/-- With the terminal not configured a write is refused. -/
theorem termWrite_unconfigured {t : Terminal} {s : State} (v : Bool) (h : patternBit s.oe t = false) :
    termWrite t v s = .refused (.unconfiguredWrite t) := by
  simp [termWrite, h]

/-- An idle block accepts. -/
theorem accepting_idle (effect : State → Result) {s : State} (h : s.seq = .idle) :
    accepting effect s = effect s := by
  simp [accepting, h]

/-- A busy block refuses a second command. -/
theorem accepting_busy (effect : State → Result) {s : State} (h : s.seq ≠ .idle) :
    accepting effect s = .refused .commandPortBusy := by
  unfold accepting
  split <;> first | rfl | exact absurd ‹_› h

/-- Acceptance that answers a next state found the block idle. -/
theorem accepting_eq_next {effect : State → Result} {s t : State} (h : accepting effect s = .next t) :
    s.seq = .idle ∧ effect s = .next t := by
  by_cases hs : s.seq = .idle
  · exact ⟨hs, by rwa [accepting_idle effect hs] at h⟩
  · rw [accepting_busy effect hs] at h
    cases h

/-- A command that writes terminals starts only with all of them configured. -/
theorem startWriting_eq_next {start : Seq} {s t : State} (h : startWriting start s = .next t) :
    s.oe = allTerminals ∧ t = { s with seq := start } := by
  unfold startWriting at h
  split at h
  · exact ⟨‹_›, by injection h with h; exact h.symm⟩
  · cases h

/-- The start of a drive: nothing to drive, or the first sub-step with all terminals configured. -/
theorem startDrive_eq_next {dir : Dir} {n : Nat} {s t : State} (h : startDrive dir n s = .next t) :
    (n = 0 ∧ t = { s with seq := .respond false 0 }) ∨
      (n ≠ 0 ∧ s.oe = allTerminals ∧ t = { s with seq := .stepRun dir n 0 .energize }) := by
  unfold startDrive at h
  split at h
  · injection h with h
    exact .inl ⟨‹_›, h.symm⟩
  · obtain ⟨ho, ht⟩ := startWriting_eq_next h
    exact .inr ⟨‹_›, ho, ht⟩

/-- The counter's successor as a number. -/
theorem nextDcc_hw_toNat (c : Counter) : (nextDcc Params.hw c).toNat = (c.toNat + 1) % 3 := by
  revert c
  decide

/-- The counter never becomes 3. -/
theorem nextDcc_hw_ne_three (c : Counter) : nextDcc Params.hw c ≠ 3 := by
  revert c
  decide

/-- The correction is tested on the advanced counter, which is 0 exactly when the counter was 2. -/
theorem correction_hw (c : Counter) : correction Params.hw c = if c = 2 then 1 else 0 := by
  revert c
  decide

/-- The raw count of this hardware, with its numbers. -/
theorem rawCount_hw (arg : Nat) : rawCount Params.hw arg = 200 * arg / 3600 / 4 := rfl

/-- A 16-bit operand never gives more than 911 sub-steps. -/
theorem pulseCount_hw_le (c : Counter) {arg : Nat} (h : arg < 65536) : pulseCount Params.hw c arg ≤ 911 := by
  have hr : rawCount Params.hw arg ≤ 910 := by
    rw [rawCount_hw]
    omega
  have hc : correction Params.hw c ≤ 1 := by
    rw [correction_hw]
    split <;> omega
  simp only [pulseCount]
  omega

end Sys2Proof.Machine
end

