-- ==== Sys2Proof/Laws/PerInstr.lean ====
section
/-! SUPPORT. Facts of every command, one lemma for each constructor of `Instr`. -/

namespace Sys2Proof.Laws.EncodeFields

/-- The fields of a command's word are the command's: `OP` is its code, which is neither 0 nor above 7, `DIR` and `ARG` are
its operands' bits, and `RSV` is zero (R71, R72, R73). -/
def Statement (i : Instr) : Prop :=
  opField (encode i) = opCode i ∧ opCode i ≠ 0 ∧ (opCode i).toNat < 8 ∧ dirField (encode i) = dirBit i ∧
    rsvField (encode i) = 0 ∧ argField (encode i) = argBits i

theorem init : Statement .init := by
  simp [Statement, encode, opCode, dirBit, argBits]

theorem fini : Statement .fini := by
  simp [Statement, encode, opCode, dirBit, argBits]

theorem setpos (dir : Dir) (deg : Nat) : Statement (.setpos dir deg) := by
  simp [Statement, encode, opCode, dirBit, argBits]

theorem quant (deg : Nat) : Statement (.quant deg) := by
  simp [Statement, encode, opCode, dirBit, argBits]

theorem drive (dir : Dir) (n : Nat) : Statement (.drive dir n) := by
  simp [Statement, encode, opCode, dirBit, argBits]

theorem stepcw : Statement .stepcw := by
  simp [Statement, encode, opCode, dirBit, argBits]

theorem stepccw : Statement .stepccw := by
  simp [Statement, encode, opCode, dirBit, argBits]

end Sys2Proof.Laws.EncodeFields
end

