-- ==== Sys2Proof/Laws/Step.lean ====
section
/-! SUPPORT. Runs one step at a time, what acceptance can do, and what a step can do, said once: `StepTo` has one constructor
for each way a step ends in a next state. -/

namespace Sys2Proof.Machine

@[simp] theorem run_zero (s : State) : run 0 s = .next s := rfl

/-- A run of one more step of any machine, from its first step. -/
theorem core_run_succ (M : Host.Core) {s t : M.State} (k : Nat) (h : M.step s = .next t) :
    M.run (k + 1) s = M.run k t := by
  rw [Host.Core.run, h]

/-- A run of any machine in two parts. -/
theorem core_run_add (M : Host.Core) {s t : M.State} {j : Nat} (k : Nat) (h : M.run j s = .next t) :
    M.run (j + k) s = M.run k t := by
  induction j generalizing s with
  | zero =>
    rw [Host.Core.run] at h
    injection h with h
    rw [h, Nat.zero_add]
  | succ j ih =>
    rw [show j + 1 + k = (j + k) + 1 by omega, Host.Core.run]
    rw [Host.Core.run] at h
    split at h
    · exact ih h
    · cases h
    · cases h

/-- A run of one more step, from its first step. -/
theorem run_succ {s t : State} (k : Nat) (h : step s = .next t) : run (k + 1) s = run k t :=
  core_run_succ Sys2Proof.core k h

/-- One step is a run of one. -/
theorem run_one {s t : State} (h : step s = .next t) : run 1 s = .next t := run_succ 0 h

/-- A run in two parts. -/
theorem run_add {s t : State} {j : Nat} (k : Nat) (h : run j s = .next t) : run (j + k) s = run k t :=
  core_run_add Sys2Proof.core k h

@[simp] theorem runWith_zero (p : Params) (s : State) : runWith p 0 s = .next s := rfl

/-- A run of one more step with other parameters, from its first step. -/
theorem runWith_succ {p : Params} {s t : State} (k : Nat) (h : stepWith p s = .next t) :
    runWith p (k + 1) s = runWith p k t :=
  core_run_succ (variant p) k h

/-- A run in two parts with other parameters. -/
theorem runWith_add {p : Params} {s t : State} {j : Nat} (k : Nat) (h : runWith p j s = .next t) :
    runWith p (j + k) s = runWith p k t :=
  core_run_add (variant p) k h

/-- `exec` is acceptance with the hardware's parameters. -/
theorem exec_eq_acceptInstr (i : Instr) : exec i = acceptInstr Params.hw i := by
  cases i <;> rfl

/-! ### `rst` -/

/-- With `rst` low for a step and more, it is low now. -/
theorem State.RstLow.now {s : State} {k : Nat} (h : s.RstLow (k + 1)) : s.rstHigh = false := by
  unfold State.RstLow at h
  unfold State.rstHigh
  cases hr : s.rst with
  | nil => rfl
  | cons b bs =>
    rw [hr] at h
    simpa using h b (by simp)

/-- With `rst` low for a step and more, it is low for the steps after this one. -/
theorem State.RstLow.next {s t : State} {k : Nat} (h : s.RstLow (k + 1)) (ht : t.rst = s.rst.tail) : t.RstLow k := by
  unfold State.RstLow at h ⊢
  intro b hb
  rw [ht] at hb
  cases hr : s.rst with
  | nil => simp [hr] at hb
  | cons c cs =>
    rw [hr] at h hb
    exact h b (by simp only [List.take_succ_cons, List.mem_cons]; exact .inr hb)

/-- Low for longer is low for shorter. -/
theorem State.RstLow.mono {s : State} {j k : Nat} (h : s.RstLow k) (hjk : j ≤ k) : s.RstLow j := by
  intro b hb
  exact h b (List.mem_of_mem_take (by rw [List.take_take, Nat.min_eq_left hjk]; exact hb : b ∈ (s.rst.take k).take j))

/-- A state with the same levels to come at `rst`. -/
theorem State.RstLow.of_eq {s t : State} {k : Nat} (h : s.RstLow k) (ht : t.rst = s.rst) : t.RstLow k := by
  unfold State.RstLow
  rw [ht]
  exact h

/-! ### The steps of a running command, for any parameters -/

theorem stepWith_low (p : Params) {s : State} (hr : s.rstHigh = false) :
    stepWith p s = runStep p (acceptInstr p) s.tick := by
  simp [stepWith, cycle, hr]

/-- The energizing micro-step (R121). -/
theorem stepWith_energize (p : Params) {s : State} {dir : Dir} {rem : Nat} {pos : Fin 4} (hr : s.rstHigh = false)
    (hq : s.seq = .stepRun dir rem pos .energize) (ho : s.oe = allTerminals) :
    stepWith p s = .next { s with
      seq := .stepRun dir rem pos .dwell
      coil := patternWith s.coil ((p.order dir).get pos) true
      rst := s.rst.tail
      emitted := .write ((p.order dir).get pos) true :: s.emitted } := by
  rw [stepWith_low p hr, runStep, tick_seq, hq]
  exact termWrite_configured true (by simp [ho])

/-- The dwell (R53, R121). -/
theorem stepWith_dwell (p : Params) {s : State} {dir : Dir} {rem : Nat} {pos : Fin 4} (hr : s.rstHigh = false)
    (hq : s.seq = .stepRun dir rem pos .dwell) :
    stepWith p s = .next { s with
      seq := .stepRun dir rem pos .deenergize
      rst := s.rst.tail
      emitted := .dwell :: s.emitted } := by
  rw [stepWith_low p hr, runStep, tick_seq, hq]
  rfl

/-- The de-energizing micro-step (R121). -/
theorem stepWith_deenergize (p : Params) {s : State} {dir : Dir} {rem : Nat} {pos : Fin 4} (hr : s.rstHigh = false)
    (hq : s.seq = .stepRun dir rem pos .deenergize) (ho : s.oe = allTerminals) :
    stepWith p s = .next { s with
      seq := afterPulse dir rem pos
      coil := patternWith s.coil ((p.order dir).get pos) false
      rst := s.rst.tail
      emitted := .write ((p.order dir).get pos) false :: s.emitted } := by
  rw [stepWith_low p hr, runStep, tick_seq, hq]
  exact termWrite_configured false (by simp [ho])

/-- A configuration of `INIT` (R126). -/
theorem stepWith_configure (p : Params) {s : State} {k : Fin 8} (hr : s.rstHigh = false) (hq : s.seq = .initRun k)
    (hk : k.val < 4) :
    stepWith p s = .next { s with
      seq := .initRun (k + 1)
      oe := patternWith s.oe (Terminal.ofIdx ⟨k.val, hk⟩) true
      rst := s.rst.tail
      emitted := .config (Terminal.ofIdx ⟨k.val, hk⟩) :: s.emitted } := by
  rw [stepWith_low p hr, runStep, tick_seq, hq]
  simp [initMicroStep, hk, cfgOut, State.emit, State.tick]

/-- A write of `INIT` (R126). -/
theorem stepWith_rest (p : Params) {s : State} {k : Fin 8} (hr : s.rstHigh = false) (hq : s.seq = .initRun k)
    (hk : 4 ≤ k.val) (ho : s.oe = allTerminals) :
    stepWith p s = .next { s with
      seq := if k.val < 7 then .initRun (k + 1) else .respond false 1
      coil := patternWith s.coil (Terminal.ofIdx ⟨k.val - 4, by omega⟩)
        (p.restLevel (Terminal.ofIdx ⟨k.val - 4, by omega⟩))
      rst := s.rst.tail
      emitted := .write (Terminal.ofIdx ⟨k.val - 4, by omega⟩)
        (p.restLevel (Terminal.ofIdx ⟨k.val - 4, by omega⟩)) :: s.emitted } := by
  rw [stepWith_low p hr, runStep, tick_seq, hq]
  simp only [initMicroStep, show ¬ k.val < 4 by omega, dif_neg, not_false_eq_true]
  exact termWrite_configured _ (by simp [ho])

/-- A write of `FINI` (R129). -/
theorem stepWith_release (p : Params) {s : State} {k : Fin 4} (hr : s.rstHigh = false) (hq : s.seq = .finiRun k)
    (ho : s.oe = allTerminals) :
    stepWith p s = .next { s with
      seq := if k.val < 3 then .finiRun (k + 1) else .respond false 0
      coil := patternWith s.coil (Terminal.ofIdx k) false
      rst := s.rst.tail
      emitted := .write (Terminal.ofIdx k) false :: s.emitted } := by
  rw [stepWith_low p hr, runStep, tick_seq, hq]
  exact termWrite_configured false (by simp [ho])

/-- The response step (R81). -/
theorem stepWith_respond (p : Params) {s : State} {err : Bool} {value : Half} (hr : s.rstHigh = false)
    (hq : s.seq = .respond err value) :
    stepWith p s = .next { s with
      seq := .idle
      rst := s.rst.tail
      emitted := .rsp err value :: s.emitted } := by
  rw [stepWith_low p hr, runStep, tick_seq, hq]
  rfl

/-- An idle step that accepts a legal word (R80). -/
theorem stepWith_accept (p : Params) {s : State} {w : Word} {moves : List HostMove} {i : Instr}
    (hr : s.rstHigh = false) (hq : s.seq = .idle) (hc : s.cmd = .present w :: moves) (hd : decode w = .ok i) :
    stepWith p s = acceptInstr p i { s with cmd := moves, rst := s.rst.tail } := by
  rw [stepWith_low p hr, runStep, tick_seq, hq]
  simp [idleStep, hc, acceptWord, hd, State.tick, hq]

/-! ### What a step can do -/

/-- The ways a step ends in a next state. -/
inductive StepTo (s : State) : State → Prop
  | reset : s.rstHigh = true → StepTo s (forceReset Params.hw s.tick)
  | waits : s.rstHigh = false → s.seq = .idle → s.cmd = [] → StepTo s s.tick
  | pauses (moves : List HostMove) : s.rstHigh = false → s.seq = .idle → s.cmd = .pause :: moves →
      StepTo s { s.tick with cmd := moves }
  | illegal (w : Word) (moves : List HostMove) (e : Illegal) : s.rstHigh = false → s.seq = .idle →
      s.cmd = .present w :: moves → decode w = .error e →
      StepTo s (raiseIllegalCommand { s.tick with cmd := moves })
  | accepts (w : Word) (moves : List HostMove) (i : Instr) (t : State) : s.rstHigh = false → s.seq = .idle →
      s.cmd = .present w :: moves → decode w = .ok i → exec i { s.tick with cmd := moves } = .next t →
      StepTo s t
  | configures (k : Fin 8) (hk : k.val < 4) : s.rstHigh = false → s.seq = .initRun k →
      StepTo s (cfgOut (Terminal.ofIdx ⟨k.val, hk⟩) { s.tick with seq := .initRun (k + 1) })
  | writes (t : Terminal) (v : Bool) (q : Seq) : s.rstHigh = false → patternBit s.oe t = true →
      ((∃ k : Fin 8, ∃ hk : 4 ≤ k.val, s.seq = .initRun k ∧ t = Terminal.ofIdx ⟨k.val - 4, by omega⟩ ∧
          v = Params.hw.restLevel t ∧ q = if k.val < 7 then .initRun (k + 1) else .respond false 1) ∨
        (∃ k : Fin 4, s.seq = .finiRun k ∧ t = Terminal.ofIdx k ∧ v = false ∧
          q = if k.val < 3 then .finiRun (k + 1) else .respond false 0) ∨
        (∃ dir rem pos, s.seq = .stepRun dir rem pos .energize ∧ t = (Params.hw.order dir).get pos ∧ v = true ∧
          q = .stepRun dir rem pos .dwell) ∨
        (∃ dir rem pos, s.seq = .stepRun dir rem pos .deenergize ∧ t = (Params.hw.order dir).get pos ∧ v = false ∧
          q = afterPulse dir rem pos)) →
      StepTo s (State.emit { s.tick with seq := q, coil := patternWith s.coil t v } (.write t v))
  | dwells (dir : Dir) (rem : Nat) (pos : Fin 4) : s.rstHigh = false → s.seq = .stepRun dir rem pos .dwell →
      StepTo s (dwell { s.tick with seq := .stepRun dir rem pos .deenergize })
  | delivers (err : Bool) (value : Half) : s.rstHigh = false → s.seq = .respond err value →
      StepTo s (deliverResponse err value s.tick)

/-- Every step that answers a next state ends in one of these ways. -/
theorem step_cases {s t : State} (h : step s = .next t) : StepTo s t := by
  unfold step cycle at h
  by_cases hr : s.rstHigh = true
  · rw [if_pos hr] at h
    injection h with h
    exact h ▸ .reset hr
  · rw [if_neg hr] at h
    have hr : s.rstHigh = false := by simpa using hr
    unfold runStep at h
    cases hq : s.seq with
    | idle =>
      simp only [tick_seq, hq] at h
      unfold idleStep at h
      cases hc : s.cmd with
      | nil =>
        simp only [tick_cmd, hc] at h
        injection h with h
        exact h ▸ .waits hr hq hc
      | cons m moves =>
        simp only [tick_cmd, hc] at h
        cases m with
        | pause =>
          injection h with h
          exact h ▸ .pauses moves hr hq hc
        | present w =>
          dsimp only at h
          unfold acceptWord at h
          cases hd : decode w with
          | ok i => rw [hd] at h; exact .accepts w moves i t hr hq hc hd h
          | error e =>
            rw [hd] at h
            injection h with h
            exact h ▸ .illegal w moves e hr hq hc hd
    | initRun k =>
      simp only [tick_seq, hq, initMicroStep] at h
      by_cases hk : k.val < 4
      · rw [dif_pos hk] at h
        injection h with h
        exact h ▸ .configures k hk hr hq
      · rw [dif_neg hk] at h
        obtain ⟨ho, ht⟩ := termWrite_eq_next h
        subst ht
        exact .writes _ _ _ hr ho (.inl ⟨k, by omega, hq, rfl, rfl, rfl⟩)
    | finiRun k =>
      simp only [tick_seq, hq, finiMicroStep] at h
      obtain ⟨ho, ht⟩ := termWrite_eq_next h
      subst ht
      exact .writes _ _ _ hr ho (.inr (.inl ⟨k, hq, rfl, rfl, rfl⟩))
    | stepRun dir rem pos ph =>
      simp only [tick_seq, hq, stepMicroStep] at h
      cases ph with
      | energize =>
        obtain ⟨ho, ht⟩ := termWrite_eq_next h
        subst ht
        exact .writes _ _ _ hr ho (.inr (.inr (.inl ⟨dir, rem, pos, hq, rfl, rfl, rfl⟩)))
      | dwell =>
        injection h with h
        exact h ▸ .dwells dir rem pos hr hq
      | deenergize =>
        obtain ⟨ho, ht⟩ := termWrite_eq_next h
        subst ht
        exact .writes _ _ _ hr ho (.inr (.inr (.inr ⟨dir, rem, pos, hq, rfl, rfl, rfl⟩)))
    | respond err value =>
      simp only [tick_seq, hq] at h
      injection h with h
      exact h ▸ .delivers err value hr hq

/-- What acceptance can leave: `SEQ` at the command's start and, for a conversion call, the counter advanced. -/
theorem exec_cases {i : Instr} {s t : State} (h : exec i s = .next t) :
    s.seq = .idle ∧
      ∃ q, t = { s with dcc := commandDcc Params.hw s.dcc i, seq := q } ∧
        ((i = .init ∧ q = .initRun 0) ∨
          (needsTerminals Params.hw s.dcc i = false ∧ i ≠ .init ∧
            q = .respond false (commandValue Params.hw s.dcc i)) ∨
          (needsTerminals Params.hw s.dcc i = true ∧ s.oe = allTerminals ∧
            q = .stepRun (commandDir i) (subSteps Params.hw s.dcc i) 0 .energize)) := by
  cases i with
  | init =>
    simp only [exec, execInit] at h
    obtain ⟨hs, h⟩ := accepting_eq_next h
    injection h with h
    exact ⟨hs, _, h.symm, .inl ⟨rfl, rfl⟩⟩
  | fini =>
    simp only [exec, execFini, acceptFini] at h
    obtain ⟨hs, h⟩ := accepting_eq_next h
    injection h with h
    exact ⟨hs, _, h.symm, .inr (.inl ⟨rfl, by simp, rfl⟩)⟩
  | quant deg =>
    simp only [exec, execQuant, acceptQuant] at h
    obtain ⟨hs, h⟩ := accepting_eq_next h
    injection h with h
    exact ⟨hs, _, h.symm, .inr (.inl ⟨rfl, by simp, rfl⟩)⟩
  | setpos dir deg =>
    simp only [exec, execSetpos, acceptSetpos] at h
    obtain ⟨hs, h⟩ := accepting_eq_next h
    rcases startDrive_eq_next h with ⟨hn, ht⟩ | ⟨hn, ho, ht⟩
    · exact ⟨hs, _, ht, .inr (.inl ⟨by simp [needsTerminals, subSteps, hn], by simp, rfl⟩)⟩
    · exact ⟨hs, _, ht, .inr (.inr ⟨by simp [needsTerminals, subSteps, hn], ho, rfl⟩)⟩
  | drive dir n =>
    simp only [exec, execDrive] at h
    obtain ⟨hs, h⟩ := accepting_eq_next h
    rcases startDrive_eq_next h with ⟨hn, ht⟩ | ⟨hn, ho, ht⟩
    · exact ⟨hs, _, ht, .inr (.inl ⟨by simp [needsTerminals, hn], by simp, rfl⟩)⟩
    · exact ⟨hs, _, ht, .inr (.inr ⟨by simp [needsTerminals, hn], ho, rfl⟩)⟩
  | stepcw =>
    simp only [exec, execStepcw] at h
    obtain ⟨hs, h⟩ := accepting_eq_next h
    rcases startDrive_eq_next h with ⟨hn, ht⟩ | ⟨hn, ho, ht⟩
    · cases hn
    · exact ⟨hs, _, ht, .inr (.inr ⟨rfl, ho, rfl⟩)⟩
  | stepccw =>
    simp only [exec, execStepccw] at h
    obtain ⟨hs, h⟩ := accepting_eq_next h
    rcases startDrive_eq_next h with ⟨hn, ht⟩ | ⟨hn, ho, ht⟩
    · cases hn
    · exact ⟨hs, _, ht, .inr (.inr ⟨rfl, ho, rfl⟩)⟩

end Sys2Proof.Machine
end

