-- ==== Sys2Proof/Tests/Slice0.lean ====
section
/-! SUPPORT. Tests on fixed values, each with the place of the spec its expected value is written from, and for every
statement of Obligations.lean that has hypotheses a concrete state and operands that meet all of them. -/

namespace Sys2Proof.Tests

open Sys2Proof Sys2Proof.Machine

/-! ### Well-formedness: one ill-formed term for each check -/

theorem test_setpos_angle_too_large : (Instr.setpos .cw 65536).wellFormed = false := by decide

theorem test_quant_angle_too_large : (Instr.quant 65536).wellFormed = false := by decide

theorem test_drive_count_too_large : (Instr.drive .ccw 65536).wellFormed = false := by decide

/-- The largest operand is still well formed (R75: the largest angle is 6553.5 degrees, the largest count 65535). -/
theorem test_largest_operands_fit :
    (Instr.setpos .ccw 65535).wellFormed = true ∧ (Instr.quant 65535).wellFormed = true ∧
      (Instr.drive .cw 65535).wellFormed = true := by decide

/-! ### Decoding: words written out bit by bit from the encodings of R72 and the opcode table -/

theorem test_decode_init : decode 0b0001_0_00000000000_0000000000000000#32 = .ok .init := by decide

theorem test_decode_fini : decode 0b0010_0_00000000000_0000000000000000#32 = .ok .fini := by decide

theorem test_decode_setpos_cw : decode 0b0011_0_00000000000_0000001110000100#32 = .ok (.setpos .cw 900) := by decide

theorem test_decode_setpos_ccw : decode 0b0011_1_00000000000_0000000001000111#32 = .ok (.setpos .ccw 71) := by decide

theorem test_decode_quant : decode 0b0100_0_00000000000_1111111111111111#32 = .ok (.quant 65535) := by decide

theorem test_decode_drive_cw : decode 0b0101_0_00000000000_1000000000000001#32 = .ok (.drive .cw 32769) := by decide

theorem test_decode_drive_ccw : decode 0b0101_1_00000000000_0000000000001101#32 = .ok (.drive .ccw 13) := by decide

theorem test_decode_stepcw : decode 0b0110_0_00000000000_0000000000000000#32 = .ok .stepcw := by decide

theorem test_decode_stepccw : decode 0b0111_0_00000000000_0000000000000000#32 = .ok .stepccw := by decide

/-- The illegal words of R85 and V9, each rejected for its own clause of R77. -/
theorem test_decode_rejects_by_name :
    decode 0x00000000 = .error .reservedOp ∧ decode 0x80000000 = .error .reservedOp ∧
      decode 0xFFFFFFFF = .error .reservedOp ∧ decode 0x30010384 = .error .nonzeroRsv ∧
      decode 0x54000001 = .error .nonzeroRsv ∧ decode 0x48000384 = .error .unusedDir ∧
      decode 0x18000000 = .error .unusedDir ∧ decode 0x10000001 = .error .unusedArg ∧
      decode 0x70008000 = .error .unusedArg := by decide

/-- The encoder against the listings of R85. -/
theorem test_encode_words :
    encode (.setpos .ccw 900) = 0x38000384 ∧ encode (.quant 36) = 0x40000024 ∧
      encode (.drive .ccw 2) = 0x58000002 ∧ encode .stepccw = 0x70000000 := by decide

/-- The table's own numbering gives the same command, and a word of another width does not exist (R70). -/
theorem test_table_words :
    decodeTableWord 32 0x5000FFFF = some (.drive .cw 65535) ∧ decodeTableWord 32 0x90000000 = none ∧
      decodeTableWord 40 0x10000000 = none := by decide

/-! ### One step of each command -/

/-- After `INIT` with `DCC` as given: `<dcc, 0b0101, 0b1111>` (V7). -/
def ready (dcc : Counter) : State := { State.reset with dcc := dcc, coil := 0b0101, oe := 0b1111 }

/-- `ready` with a command running. -/
def running (q : Seq) : State := { ready 1 with seq := q }

/-- V10 (c): acceptance of `INIT` in the reset state. -/
theorem test_init_accepts :
    nextState? (step (State.reset.withFetchWord 32 0x10000000)) = some { State.reset with seq := .initRun 0 } := by decide

/-- V10 (c): `InitRun(7)`, `W(B2,0)`, then `Respond(0,1)`. -/
theorem test_init_last_write :
    nextState? (step { running (.initRun 7) with coil := 0b1101 }) =
      some { running (.respond false 1) with emitted := [.write .b2 false] } := by decide

/-- V7 (e): `FINI` in the reset state only responds. -/
theorem test_fini_before_init :
    nextState? (step (State.reset.withFetchWord 32 0x20000000)) =
      some { State.reset with seq := .respond false 0 } := by decide

/-- V8, second row: `SETPOS CW, 90.0` from `DCC = 2` drives 13 sub-steps and leaves `DCC = 0`. -/
theorem test_setpos_correction_call :
    nextState? (step ((ready 2).withFetchWord 32 0x30000384)) =
      some { ready 0 with seq := .stepRun .cw 13 0 .energize } := by decide

/-- V8, twelfth row: in the reset state `SETPOS CW, 0` advances `DCC` to 2 and drives nothing. -/
theorem test_setpos_zero_before_init :
    nextState? (step (State.reset.withFetchWord 32 0x30000000)) =
      some { State.reset with dcc := 2, seq := .respond false 0 } := by decide

/-- V10 (d): `QUANT 90.0` from `DCC = 2`. -/
theorem test_quant_correction_call :
    nextState? (step ((ready 2).withFetchWord 32 0x40000384)) = some { ready 0 with seq := .respond false 13 } := by decide

/-- V2, call 9: `QUANT 6553.5` from `DCC = 0`. -/
theorem test_quant_largest_angle :
    nextState? (step ((ready 0).withFetchWord 32 0x4000FFFF)) = some { ready 1 with seq := .respond false 910 } := by decide

/-- V10 (b): acceptance of `DRIVE CCW, 2`. -/
theorem test_drive_accepts :
    nextState? (step ((ready 1).withFetchWord 32 0x58000002)) =
      some { ready 1 with seq := .stepRun .ccw 2 0 .energize } := by decide

/-- V10 (b): after the twelfth event the second sub-step begins, at position 0. -/
theorem test_drive_second_sub_step :
    nextState? (step { running (.stepRun .ccw 2 3 .deenergize) with coil := 0b0001 }) =
      some { running (.stepRun .ccw 1 0 .energize) with coil := 0b0000, emitted := [.write .a1 false] } := by decide

/-- V10 (a), step 1 of `STEPCW`, from the resting pattern (R133): `W(A1,1)`. -/
theorem test_stepcw_first_write :
    nextState? (step (running (.stepRun .cw 1 0 .energize))) =
      some { running (.stepRun .cw 1 0 .dwell) with emitted := [.write .a1 true] } := by decide

/-- V10 (a), step 4: the second terminal clockwise is B1, bit 2. -/
theorem test_stepcw_second_terminal :
    nextState? (step { running (.stepRun .cw 1 1 .energize) with coil := 0b0000 }) =
      some { running (.stepRun .cw 1 1 .dwell) with coil := 0b0100, emitted := [.write .b1 true] } := by decide

/-- Acceptance of `STEPCCW` (R123). -/
theorem test_stepccw_accepts :
    nextState? (step ((ready 2).withFetchWord 32 0x70000000)) =
      some { ready 2 with seq := .stepRun .ccw 1 0 .energize } := by decide

/-- R133, counter-clockwise from the resting pattern: the first write is `W(B2,1)`, giving `0b1101`. -/
theorem test_stepccw_first_write :
    nextState? (step (running (.stepRun .ccw 1 0 .energize))) =
      some { running (.stepRun .ccw 1 0 .dwell) with coil := 0b1101, emitted := [.write .b2 true] } := by decide

/-- V9 (a): an illegal word is accepted and answered, and `DCC` does not advance. -/
theorem test_illegal_word :
    nextState? (step { ready 2 with cmd := [.present 0x48000384] }) = some { ready 2 with seq := .respond true 0 } ∧
      State.rspPort { ready 2 with seq := .respond true 0 } = some 0x80000000 := by decide

/-- V11 (c): reset in a dwell of a drive; no event, no response. -/
theorem test_reset_in_a_drive :
    nextState? (step { running (.stepRun .cw 2 1 .dwell) with coil := 0b0100, rst := [true] }) = some State.reset := by
  decide

/-- V12: a word presented while a command runs waits. -/
theorem test_busy_word_waits :
    nextState? (step { running (.respond false 0) with cmd := [.present 0x58000001] }) =
      some { ready 1 with cmd := [.present 0x58000001], emitted := [.rsp false 0] } := by decide

/-- V8, last row (U1): the count is 1 and no terminal is configured, so the command is refused as a whole. -/
theorem test_setpos_refused_before_init :
    exec (.setpos .cw 0) { State.reset with dcc := 2 } = .refused .terminalsNotConfigured := rfl

/-! ### Witnesses: every statement's hypotheses can be met, and each clause's -/

/-- With no level listed at `rst` it is low for good. -/
theorem low_of_nil {s : State} (k : Nat) (h : s.rst = []) : s.RstLow k := by
  intro level hl
  rw [h, List.take_nil] at hl
  cases hl

theorem witness_ResetForcesEveryState :
    State.rstHigh { running (.stepRun .ccw 65535 3 .deenergize) with rst := [true] } = true := by decide

theorem witness_DecodeOfEncode :
    (Instr.setpos .ccw 65535).wellFormed = true ∧ (Instr.drive .cw 0).wellFormed = true := by decide

theorem witness_EncodeOfDecode : decode 0x3800FFFF = .ok (.setpos .ccw 65535) := by decide

theorem witness_ResponseWordLayout : ∃ low high : Nat, 16 ≤ low ∧ low ≤ 30 ∧ high = 30 ∧ 16 ≤ high ∧ high ≤ 30 :=
  ⟨16, 30, by decide⟩

theorem witness_StepRunsTheDecodedCommand :
    ∃ (s : State) (w : Word) (moves : List HostMove) (i : Instr),
      s.rstHigh = false ∧ s.seq = .idle ∧ s.cmd = .present w :: moves ∧ decode w = .ok i :=
  ⟨{ ready 1 with cmd := [.present 0x5800FFFF, .pause] }, 0x5800FFFF, [.pause], .drive .ccw 65535, by decide⟩

theorem witness_PlacedWordRuns : decodeTableWord 32 0x70000000 = some .stepccw := by decide

/-- An illegal word accepted, a legal command accepted, and a step that makes an error response next. -/
theorem witness_IllegalCommandIsAnsweredAndSkipped :
    (∃ (s : State) (w : Word) (moves : List HostMove),
      s.RstLow 2 ∧ s.seq = .idle ∧ s.cmd = .present w :: moves ∧ legal w = false) ∧
      exec .fini (ready 2) = .next { ready 2 with seq := .respond false 0 } ∧
      step { ready 2 with cmd := [.present 0x48000384] } = .next { ready 2 with seq := .respond true 0 } :=
  ⟨⟨{ ready 2 with cmd := [.present 0x48000384] }, 0x48000384, [], low_of_nil _ rfl, by decide⟩, rfl, rfl⟩

/-- A response about to be delivered, and the last micro-step of `INIT`. -/
theorem witness_ResponseStepDelivers :
    (∃ (s : State) (err : Bool) (value : Half), s.seq = .respond err value ∧ s.rstHigh = false) ∧
      ∃ s : State, s.seq = .initRun 7 ∧ s.rstHigh = false ∧ s.oe = 0b1111 :=
  ⟨⟨running (.respond false 911), false, 911, by decide⟩, running (.initRun 7), by decide⟩

theorem witness_BusyBlockIgnoresTheHost :
    ∃ s t : State, s.seq ≠ .idle ∧ step s = .next t :=
  ⟨running (.initRun 0), { running (.initRun 1) with emitted := [.config .a1] }, by decide, rfl⟩

/-- One witness for each clause: nothing emitted with no word and with one, a configuration, a write, a dwell, a response. -/
theorem witness_OneEventPerStep :
    step { ready 1 with cmd := [.pause] } = .next (ready 1) ∧
    step (State.reset.withFetchWord 32 0x10000000) = .next { State.reset with seq := .initRun 0 } ∧
      step { State.reset with seq := .initRun 0 } =
        .next { State.reset with oe := 0b0001, seq := .initRun 1, emitted := [.config .a1] } ∧
      step (running (.stepRun .ccw 1 0 .energize)) =
        .next { running (.stepRun .ccw 1 0 .dwell) with coil := 0b1101, emitted := [.write .b2 true] } ∧
      step (running (.stepRun .ccw 1 0 .dwell)) =
        .next { running (.stepRun .ccw 1 0 .deenergize) with emitted := [.dwell] } ∧
      step (running (.respond true 0)) = .next { ready 1 with emitted := [.rsp true 0] } :=
  ⟨rfl, rfl, rfl, rfl, rfl, rfl⟩

/-- A conversion call and a step that is none. -/
theorem witness_OnlyConversionCallsAdvanceDcc :
    (∃ s t : State, s.rstHigh = false ∧ step s = .next t ∧ s.acceptsConversion = true) ∧
      ∃ s t : State, s.rstHigh = false ∧ step s = .next t ∧ s.acceptsConversion = false :=
  ⟨⟨(ready 2).withFetchWord 32 0x40000000, { ready 0 with seq := .respond false 1 }, by decide, rfl, by decide⟩,
    ⟨(ready 2).withFetchWord 32 0x50000000, { ready 2 with seq := .respond false 0 }, by decide, rfl, by decide⟩⟩

/-- A step with a bit of `OE` set before it, and a step that sets one. -/
theorem witness_OnlyInitSetsOutputEnables :
    ∃ s t : State, s.rstHigh = false ∧ step s = .next t ∧ patternBit s.oe .b1 = true ∧ t.oe ≠ s.oe :=
  ⟨{ running (.initRun 3) with oe := 0b0111 }, { running (.initRun 4) with emitted := [.config .b2] },
    by decide, rfl, by decide, by decide⟩

theorem witness_OutputEnablesOnlyGate :
    ∃ (s t t' : State) (enables : Pattern), step s = .next t ∧ step { s with oe := enables } = .next t' ∧
      s.oe ≠ enables :=
  ⟨running (.respond false 0), { ready 1 with emitted := [.rsp false 0] },
    { ready 1 with oe := 0b0000, emitted := [.rsp false 0] }, 0b0000, rfl, rfl, by decide⟩

/-- A command that is no conversion call, and one that is. -/
theorem witness_AcceptanceFrame :
    (∃ (i : Instr) (s t : State), exec i s = .next t ∧ isConversion i = false) ∧
      ∃ (i : Instr) (s t : State), exec i s = .next t ∧ isConversion i = true :=
  ⟨⟨.stepcw, ready 1, running (.stepRun .cw 1 0 .energize), rfl, rfl⟩,
    ⟨.quant 900, ready 1, { ready 2 with seq := .respond false 12 }, rfl, rfl⟩⟩

/-- The three ways the clauses' hypotheses are met: no terminal needed, all configured, and one not configured. -/
theorem witness_RefusedExactlyBeforeInit :
    (State.reset.seq = .idle ∧ needsTerminals Params.hw State.reset.dcc (.drive .cw 0) = false) ∧
      ((ready 1).seq = .idle ∧ needsTerminals Params.hw (ready 1).dcc (.drive .cw 1) = true ∧ (ready 1).oe = 0b1111) ∧
      ∃ s : State, s.seq = .idle ∧ needsTerminals Params.hw s.dcc .stepcw = true ∧ s.oe = 0b0111 ∧ s.oe ≠ 0b1111 :=
  ⟨by decide, by decide, { ready 1 with oe := 0b0111 }, by decide⟩

theorem witness_SecondAgentIsRefused : (running (.respond false 0)).seq ≠ .idle := by decide

theorem witness_QuantRuns : (ready 2).seq = .idle ∧ 65535 < 65536 ∧ (ready 2).RstLow 1 :=
  ⟨rfl, by decide, low_of_nil _ rfl⟩

/-- Both conversion calls, from the counter value before the wrap. -/
theorem witness_ConversionCallsAdvanceAndCorrect :
    (ready 2).dcc ≠ 3 ∧ exec (.quant 71) (ready 2) = .next { ready 0 with seq := .respond false 1 } ∧
      exec (.setpos .ccw 71) (ready 2) = .next { ready 0 with seq := .stepRun .ccw 1 0 .energize } :=
  ⟨by decide, rfl, rfl⟩

theorem witness_RawCountClosedForm : ∃ scale : Nat, 1 ≤ scale := ⟨1, by decide⟩

theorem witness_QuantizerNeverOverflows : ∃ arg : Nat, arg < 65536 ∧ arg = 65535 := ⟨65535, by decide⟩

/-- A correction call with the terminals configured, and a call that is none; the largest of the small angles. -/
theorem witness_SmallAnglesAdvanceTheCounter :
    ((ready 2).seq = .idle ∧ 71 < 72 ∧ (ready 2).dcc = 2 ∧ (ready 2).oe = 0b1111) ∧
      (State.reset.seq = .idle ∧ State.reset.dcc ≠ 2) := by decide

theorem witness_ThreeCallsOneCorrection : (2 : Counter) ≠ 3 := by decide

theorem witness_QuantCadenceFromReset : ∃ angles : List Nat, angles.length = 3 ∧ ∀ a ∈ angles, a < 65536 :=
  ⟨[0, 71, 65535], by decide⟩

/-- Terminals configured, and one of them not. -/
theorem witness_StepcwRuns_and_StepccwRuns :
    ((ready 1).seq = .idle ∧ (ready 1).oe = 0b1111 ∧ (ready 1).RstLow 13) ∧
      ∃ s : State, s.seq = .idle ∧ s.oe = 0b0111 ∧ s.oe ≠ 0b1111 :=
  ⟨⟨rfl, rfl, low_of_nil _ rfl⟩, { ready 1 with oe := 0b0111 }, by decide⟩

theorem witness_SubStepPatternTables : (ready 1).oe = 0b1111 ∧ (ready 1).RstLow 12 :=
  ⟨rfl, low_of_nil _ rfl⟩

/-- No sub-step, one sub-step with the terminals configured, the largest count, and one with no terminal configured. -/
theorem witness_DriveRuns :
    (State.reset.seq = .idle ∧ State.reset.RstLow 1) ∧
      ((ready 1).seq = .idle ∧ 1 ≤ 1 ∧ (ready 1).oe = 0b1111 ∧ (ready 1).RstLow (12 * 1 + 1)) ∧
      (1 ≤ 65535 ∧ (ready 1).RstLow (12 * 65535 + 1)) ∧
      (State.reset.seq = .idle ∧ 1 ≤ 1 ∧ State.reset.oe ≠ 0b1111) :=
  ⟨⟨rfl, low_of_nil _ rfl⟩, ⟨rfl, by decide, rfl, low_of_nil _ rfl⟩, ⟨by decide, low_of_nil _ rfl⟩, by decide⟩

/-- The first `INIT` and a later one. -/
theorem witness_InitRuns :
    (State.reset.seq = .idle ∧ State.reset.RstLow 9) ∧ ((ready 0).seq = .idle ∧ (ready 0).RstLow 9) :=
  ⟨⟨rfl, low_of_nil _ rfl⟩, ⟨rfl, low_of_nil _ rfl⟩⟩

theorem witness_FiniRuns : State.reset.seq = .idle ∧ State.reset.RstLow 1 := ⟨rfl, low_of_nil _ rfl⟩

/-- The option, with the terminals configured and with none. -/
theorem witness_FiniOptionDeenergizes :
    ∃ p : Params, p.finiDeenergize = true ∧
      ((ready 1).seq = .idle ∧ (ready 1).oe = 0b1111 ∧ (ready 1).RstLow 5) ∧
      (State.reset.seq = .idle ∧ State.reset.oe ≠ 0b1111) :=
  ⟨{ Params.hw with finiDeenergize := true }, rfl, ⟨rfl, rfl, low_of_nil _ rfl⟩, by decide⟩

theorem witness_InitThenFiniWritesOnlyTheRestingPattern :
    ∃ s : State, s.seq = .idle ∧ s.cmd = [.present 0x10000000, .present 0x20000000] ∧ s.RstLow 12 :=
  ⟨{ State.reset with cmd := [.present 0x10000000, .present 0x20000000] }, rfl, rfl, low_of_nil _ rfl⟩

/-- The hardware's parameters meet R15, and so do others (U6: another pair of orders). -/
theorem witness_DriveTracesMirror_and_NominalDurations :
    Params.hw.valid = true ∧
      ({ Params.hw with
          orderCw := ⟨.b1, .a1, .b2, .a2⟩, orderCcw := ⟨.a2, .b2, .a1, .b1⟩, dwellMs := 7 } : Params).valid = true := by
  decide

/-- The first and the last place of a drive of two sub-steps, in both directions. -/
theorem witness_DrivePatternsRetrace :
    ∃ s : State, 1 ≤ 2 ∧ 0 ≤ 12 * 2 ∧ 24 ≤ 12 * 2 ∧ Dir.ccw ≠ Dir.cw ∧ Dir.cw ≠ Dir.ccw ∧ s.oe = 0b1111 ∧
      s.coil = 0b0000 ∧ s.RstLow (12 * 2) :=
  ⟨{ ready 1 with coil := 0b0000 }, by decide, by decide, by decide, by decide, by decide, rfl, rfl, low_of_nil _ rfl⟩

/-- A count of 0, a count of 1 (7.1 degrees on a correction call), the largest count, and a count of 1 before `INIT`. -/
theorem witness_SetposRuns :
    (State.reset.seq = .idle ∧ 0 = 200 * 71 / 3600 / 4 + (if (State.reset.dcc.toNat + 1) % 3 = 0 then 1 else 0) ∧
        State.reset.RstLow 1) ∧
      ((ready 2).seq = .idle ∧ 1 = 200 * 71 / 3600 / 4 + (if ((ready 2).dcc.toNat + 1) % 3 = 0 then 1 else 0) ∧
        (ready 2).oe = 0b1111 ∧ (ready 2).RstLow (12 * 1 + 1)) ∧
      (911 = 200 * 65535 / 3600 / 4 + (if ((ready 2).dcc.toNat + 1) % 3 = 0 then 1 else 0) ∧
        (ready 2).RstLow (12 * 911 + 1)) ∧
      (State.reset.oe ≠ 0b1111 ∧
        1 = 200 * 72 / 3600 / 4 + (if (State.reset.dcc.toNat + 1) % 3 = 0 then 1 else 0)) :=
  ⟨⟨rfl, rfl, low_of_nil _ rfl⟩, ⟨rfl, rfl, rfl, low_of_nil _ rfl⟩, ⟨rfl, low_of_nil _ rfl⟩, by decide, rfl⟩

/-- The largest count with the terminals configured, and a count of 0 before `INIT`. -/
theorem witness_SetposIsQuantThenDrive :
    ((ready 2).seq = .idle ∧ (ready 2).oe = 0b1111 ∧ (ready 2).rst = [] ∧ 65535 < 65536 ∧
        911 = pulseCount Params.hw (ready 2).dcc 65535) ∧
      (State.reset.seq = .idle ∧ State.reset.oe ≠ 0b1111 ∧ State.reset.rst = [] ∧ 71 < 65536 ∧
        0 = pulseCount Params.hw State.reset.dcc 71) := by decide

theorem witness_SetposCadence :
    ∃ requests : List (Dir × Nat), (ready 1).seq = .idle ∧ (ready 1).oe = 0b1111 ∧ (ready 1).rst = [] ∧
      (ready 1).dcc = 1 ∧ requests.length = 3 ∧ ∀ r ∈ requests, r.2 < 65536 :=
  ⟨[(.cw, 900), (.ccw, 0), (.cw, 65535)], rfl, rfl, rfl, rfl, rfl, by decide⟩

/-- A command that needs the terminals in a state that has them, and one that does not in a state that has not. -/
theorem witness_MicroStepsRefineTheCommandView :
    Params.hw.valid = true ∧
      ((ready 1).seq = .idle ∧ needsTerminals Params.hw (ready 1).dcc .stepcw = true ∧ (ready 1).oe = allTerminals ∧
        (ready 1).RstLow (commandSteps Params.hw (ready 1).dcc .stepcw)) ∧
      (State.reset.seq = .idle ∧ needsTerminals Params.hw State.reset.dcc (.quant 65535) = false) :=
  ⟨by decide, ⟨rfl, rfl, rfl, low_of_nil _ rfl⟩, by decide⟩

/-- The invariant holds inside the first `INIT`, inside a drive and at rest, and each of these states steps. -/
theorem witness_StepsKeepTheInvariant :
    (State.Inv { State.reset with oe := 0b0011, seq := .initRun 2 } ∧
        step { State.reset with oe := 0b0011, seq := .initRun 2 } =
          .next { State.reset with oe := 0b0111, seq := .initRun 3, emitted := [.config .b1] }) ∧
      (State.Inv { running (.stepRun .cw 65535 3 .deenergize) with coil := 0b1000 } ∧
        step { running (.stepRun .cw 65535 3 .deenergize) with coil := 0b1000 } =
          .next { running (.stepRun .cw 65534 0 .energize) with coil := 0b0000, emitted := [.write .b2 false] }) ∧
      (State.Inv (running (.respond false 911)) ∧
        step (running (.respond false 911)) = .next { ready 1 with emitted := [.rsp false 911] }) :=
  ⟨⟨⟨by decide, by decide⟩, rfl⟩, ⟨⟨by decide, by decide⟩, rfl⟩, ⟨⟨by decide, by decide⟩, rfl⟩⟩

/-- A state that meets the invariant and the conditions of the refusal, and one whose step goes on. -/
theorem witness_OnlyAnEarlyTerminalWriteIsRefused :
    (∃ (s : State) (w : Word) (moves : List HostMove) (i : Instr), s.Inv ∧ s.rstHigh = false ∧ s.seq = .idle ∧
        s.oe ≠ 0b1111 ∧ s.cmd = .present w :: moves ∧ decode w = .ok i ∧
        needsTerminals Params.hw s.dcc i = true ∧ step s = .refused .terminalsNotConfigured) ∧
      State.reset.Inv ∧ step State.reset = .next State.reset :=
  ⟨⟨{ State.reset with cmd := [.present 0x60000000] }, 0x60000000, [], .stepcw, ⟨by decide, by decide⟩, by decide,
      rfl, by decide, rfl, by decide, by decide, rfl⟩, ⟨by decide, by decide⟩, rfl⟩

/-- The first and the last step of the longest drive. -/
theorem witness_RunningCommandsCountDown :
    ((running (.stepRun .cw 65535 0 .energize)).Inv ∧ (running (.stepRun .cw 65535 0 .energize)).rstHigh = false ∧
        (running (.stepRun .cw 65535 0 .energize)).seq ≠ .idle) ∧
      ((running (.respond false 0)).Inv ∧ (running (.respond false 0)).rstHigh = false ∧
        (running (.respond false 0)).seq ≠ .idle) :=
  ⟨⟨⟨by decide, by decide⟩, by decide, by decide⟩, ⟨⟨by decide, by decide⟩, by decide, by decide⟩⟩

/-- Three words, the second of them illegal. -/
theorem witness_FiniteCommandListsFinish :
    ∃ (words : List Word) (s : State), words.length = 3 ∧ s.dcc ≠ 3 ∧ s.seq = .idle ∧ s.oe = 0b1111 ∧ s.rst = [] ∧
      s.cmd = words.map HostMove.present :=
  ⟨[0x30000384, 0x48000384, 0x20000000],
    { ready 2 with cmd := [.present 0x30000384, .present 0x48000384, .present 0x20000000] },
    rfl, by decide, rfl, rfl, rfl, rfl⟩

/-- Nothing presented from here on, and a pause before a word. -/
theorem witness_IdleBlockWaits :
    (State.reset.rstHigh = false ∧ State.reset.seq = .idle ∧ State.reset.cmdValid = false) ∧
      ∃ s : State, s.rstHigh = false ∧ s.seq = .idle ∧ s.cmdValid = false ∧ s.cmd = [.pause, .present 0x70000000] :=
  ⟨by decide, { ready 1 with cmd := [.pause, .present 0x70000000] }, by decide⟩

end Sys2Proof.Tests
end

section
/-! PROOFS. What the ports show of an idle block and of a terminal that is not configured (R27, R28, R29), the fields of
the state after reset (R33), and O1 from the two. -/

namespace Sys2Proof.Machine

/-! ### The ports of an idle block -/

/-- An idle block is not busy (R27). -/
theorem busy_of_idle {s : State} (h : s.seq = .idle) : s.busy = false := by
  simp [State.busy, h]

/-- An idle block is ready exactly when `rst` is low (R28). -/
theorem cmdReady_of_idle {s : State} (h : s.seq = .idle) : s.cmdReady = !s.rstHigh := by
  simp [State.cmdReady, h]

/-- An idle block shows no response (R28, R81). -/
theorem rspPort_of_idle {s : State} (h : s.seq = .idle) : s.rspPort = none := by
  simp [State.rspPort, h]

/-! ### Terminals that are not configured -/

/-- In the zero pattern the bit of every terminal is 0. -/
@[simp] theorem patternBit_zero (t : Terminal) : patternBit 0 t = false := by
  simp [patternBit]

/-- A terminal that is not configured is not driven (R29). -/
theorem pin_of_unconfigured {s : State} {t : Terminal} (h : patternBit s.oe t = false) : s.pin t = none := by
  simp [State.pin, h]

/-! ### The state after reset -/

@[simp] theorem reset_dcc : State.reset.dcc = 1 := rfl
@[simp] theorem reset_coil : State.reset.coil = 0 := rfl
@[simp] theorem reset_oe : State.reset.oe = 0 := rfl
@[simp] theorem reset_seq : State.reset.seq = .idle := rfl
@[simp] theorem reset_rstHigh : State.reset.rstHigh = false := rfl

/-- Settles O1: the fields are those of reset, and the ports follow from `SEQ = Idle`, `rst` low and no terminal
configured. -/
theorem resetStateAndPorts : Obligations.ResetStateAndPorts := by
  have ready : State.reset.cmdReady = true := by rw [cmdReady_of_idle reset_seq, reset_rstHigh, Bool.not_false]
  have undriven : ∀ t, State.reset.pin t = none := fun t => pin_of_unconfigured (by rw [reset_oe, patternBit_zero])
  exact ⟨reset_dcc, reset_coil, reset_oe, reset_seq, busy_of_idle reset_seq, ready, rspPort_of_idle reset_seq, undriven⟩

end Sys2Proof.Machine
end

section
/-! PROOFS. Two words are equal exactly when their fields are; each row of the legality table is therefore a condition on the
fields (R71, R76), and so is what the decoder accepts (R77). O6 from these. -/

namespace Sys2Proof

/-! ### Words by their fields -/

@[simp] theorem opField_and (v w : Word) : opField (v &&& w) = opField v &&& opField w := BitVec.extractLsb'_and

@[simp] theorem dirField_and (v w : Word) : dirField (v &&& w) = (dirField v && dirField w) := BitVec.getLsbD_and

@[simp] theorem rsvField_and (v w : Word) : rsvField (v &&& w) = rsvField v &&& rsvField w := BitVec.extractLsb'_and

@[simp] theorem argField_and (v w : Word) : argField (v &&& w) = argField v &&& argField w := BitVec.extractLsb'_and

/-- A word is assembled from given fields exactly when it has them and its `RSV` is zero (R71). -/
theorem eq_assemble_iff {w : Word} {op : BitVec 4} {d : Bool} {a : Half} :
    w = assemble op d a ↔ opField w = op ∧ rsvField w = 0 ∧ dirField w = d ∧ argField w = a := by
  constructor
  · rintro rfl
    simp
  · rintro ⟨rfl, hrsv, rfl, rfl⟩
    exact (assemble_fields hrsv).symm

/-! ### The rows of the legality table, by their masks -/

/-- The rows of `INIT`, `FINI`, `STEPCW` and `STEPCCW`: no operand field is used, and every bit counts. -/
theorem masked_noOperand_iff {w : Word} (op : BitVec 4) :
    w &&& 0xFFFFFFFF = assemble op false 0 ↔
      opField w = op ∧ rsvField w = 0 ∧ dirField w = false ∧ argField w = 0 := by
  have hmask : (0xFFFFFFFF : Word) = BitVec.allOnes 32 := rfl
  rw [hmask, BitVec.and_allOnes, eq_assemble_iff]

/-- The row of `QUANT`: `ARG` is free. -/
theorem masked_arg_iff {w : Word} (op : BitVec 4) :
    w &&& 0xFFFF0000 = assemble op false 0 ↔ opField w = op ∧ rsvField w = 0 ∧ dirField w = false := by
  have hop : opField 0xFFFF0000 = BitVec.allOnes 4 := rfl
  have hrsv : rsvField 0xFFFF0000 = BitVec.allOnes 11 := rfl
  have hdir : dirField 0xFFFF0000 = true := rfl
  have harg : argField 0xFFFF0000 = 0 := rfl
  rw [eq_assemble_iff, opField_and, rsvField_and, dirField_and, argField_and, hop, hrsv, hdir, harg,
    BitVec.and_allOnes, BitVec.and_allOnes]
  simp

/-- The rows of `SETPOS` and `DRIVE`: `DIR` and `ARG` are free. -/
theorem masked_dirArg_iff {w : Word} (op : BitVec 4) :
    w &&& 0xF7FF0000 = assemble op false 0 ↔ opField w = op ∧ rsvField w = 0 := by
  have hop : opField 0xF7FF0000 = BitVec.allOnes 4 := rfl
  have hrsv : rsvField 0xF7FF0000 = BitVec.allOnes 11 := rfl
  have hdir : dirField 0xF7FF0000 = false := rfl
  have harg : argField 0xF7FF0000 = 0 := rfl
  rw [eq_assemble_iff, opField_and, rsvField_and, dirField_and, argField_and, hop, hrsv, hdir, harg,
    BitVec.and_allOnes, BitVec.and_allOnes]
  simp

/-- `Legal(w)`, the table written out row by row (R76). -/
theorem legal_iff_masked {w : Word} :
    legal w = true ↔
      (w &&& 0xFFFFFFFF = 0x10000000 ∨ w &&& 0xFFFFFFFF = 0x20000000 ∨ w &&& 0xF7FF0000 = 0x30000000 ∨
        w &&& 0xFFFF0000 = 0x40000000 ∨ w &&& 0xF7FF0000 = 0x50000000 ∨ w &&& 0xFFFFFFFF = 0x60000000 ∨
        w &&& 0xFFFFFFFF = 0x70000000) := by
  simp [legal, legalRows, LegalRow.matches]

/-! ### Legal words by their fields -/

/-- What R72 and R73 ask of the fields of a legal word: `RSV` is zero, `OP` is one of the seven codes, and an operand
field the command does not use is zero. -/
def LegalFields (w : Word) : Prop :=
  rsvField w = 0 ∧
    (((opField w = 1 ∨ opField w = 2 ∨ opField w = 6 ∨ opField w = 7) ∧ dirField w = false ∧ argField w = 0) ∨
      (opField w = 4 ∧ dirField w = false) ∨ opField w = 3 ∨ opField w = 5)

/-- The legality table is a condition on the fields. -/
theorem legal_iff_legalFields {w : Word} : legal w = true ↔ LegalFields w := by
  have h1 : (0x10000000 : Word) = assemble 1 false 0 := rfl
  have h2 : (0x20000000 : Word) = assemble 2 false 0 := rfl
  have h3 : (0x30000000 : Word) = assemble 3 false 0 := rfl
  have h4 : (0x40000000 : Word) = assemble 4 false 0 := rfl
  have h5 : (0x50000000 : Word) = assemble 5 false 0 := rfl
  have h6 : (0x60000000 : Word) = assemble 6 false 0 := rfl
  have h7 : (0x70000000 : Word) = assemble 7 false 0 := rfl
  rw [legal_iff_masked, h1, h2, h3, h4, h5, h6, h7]
  simp only [masked_noOperand_iff, masked_arg_iff, masked_dirArg_iff]
  unfold LegalFields
  tauto

/-- When a command without operands is accepted (R73). -/
theorem exists_takeNone_eq_ok {w : Word} {i : Instr} :
    (∃ j, takeNone w i = .ok j) ↔ dirField w = false ∧ argField w = 0 := by
  constructor
  · rintro ⟨j, h⟩
    obtain ⟨hdir, harg, -⟩ := takeNone_eq_ok h
    exact ⟨hdir, harg⟩
  · rintro ⟨hdir, harg⟩
    exact ⟨i, by simp [takeNone, hdir, harg]⟩

/-- When a command with `ARG` only is accepted (R73). -/
theorem exists_takeArg_eq_ok {w : Word} {f : Nat → Instr} : (∃ j, takeArg w f = .ok j) ↔ dirField w = false := by
  constructor
  · rintro ⟨j, h⟩
    exact (takeArg_eq_ok h).1
  · intro hdir
    exact ⟨f (argField w).toNat, by simp [takeArg, hdir]⟩

/-- A command with both operands is accepted whatever they are (R74, R75). -/
theorem exists_takeDirArg_eq_ok {w : Word} {f : Dir → Nat → Instr} : ∃ j, takeDirArg w f = .ok j := ⟨_, rfl⟩

/-- An `OP` value is reserved or one of the seven codes (R72). -/
theorem op_cases (op : BitVec 4) :
    (op = 0 ∨ 8 ≤ op.toNat) ∨ op = 1 ∨ op = 2 ∨ op = 3 ∨ op = 4 ∨ op = 5 ∨ op = 6 ∨ op = 7 := by
  revert op
  decide

/-- The decoder accepts nothing with a reserved `OP` (R77). -/
theorem decode_reservedOp {w : Word} (h : opField w = 0 ∨ 8 ≤ (opField w).toNat) : decode w = .error .reservedOp :=
  if_pos h

/-- No legal word has a reserved `OP`. -/
theorem LegalFields.not_reservedOp {w : Word} (h : LegalFields w) : ¬ (opField w = 0 ∨ 8 ≤ (opField w).toNat) := by
  obtain ⟨-, ⟨hop | hop | hop | hop, -⟩ | ⟨hop, -⟩ | hop | hop⟩ := h <;> simp [hop]

/-- The decoder accepts a word exactly when its fields are those of a legal one (R77). -/
theorem exists_decode_eq_ok_iff {w : Word} : (∃ i, decode w = .ok i) ↔ LegalFields w := by
  by_cases hrsv : rsvField w = 0
  · rcases op_cases (opField w) with hop | hop | hop | hop | hop | hop | hop | hop
    case inl =>
      simp only [decode_reservedOp hop, reduceCtorEq, exists_false, false_iff]
      exact fun h => h.not_reservedOp hop
    all_goals
      simp [decode, LegalFields, hop, hrsv, exists_takeNone_eq_ok, exists_takeArg_eq_ok, exists_takeDirArg_eq_ok]
  · have hreject : ¬ ∃ i, decode w = .ok i := by
      rintro ⟨i, h⟩
      unfold decode at h
      rw [if_pos hrsv] at h
      split at h <;> cases h
    exact iff_of_false hreject fun h => hrsv h.1

/-! ### At most one row -/

/-- Every mask of the table keeps all of `OP`. -/
theorem opField_mask {r : LegalRow} (h : r ∈ legalRows) : opField r.mask = BitVec.allOnes 4 := by
  revert r
  decide

/-- A word that matches a row of the table has the row's `OP`. -/
theorem opField_of_matches {r : LegalRow} {w : Word} (hr : r ∈ legalRows) (h : r.matches w = true) :
    opField r.pattern = opField w := by
  have h : w &&& r.mask = r.pattern := by simpa [LegalRow.matches] using h
  rw [← h, opField_and, opField_mask hr, BitVec.and_allOnes]

/-- No two rows of the table have the same `OP`. -/
theorem countP_opField_legalRows_le_one (op : BitVec 4) :
    legalRows.countP (fun r => decide (opField r.pattern = op)) ≤ 1 := by
  revert op
  decide

/-- At most one row of the table matches, because the `OP` values differ (R76). -/
theorem length_filter_matches_le_one (w : Word) : (legalRows.filter fun r => r.matches w).length ≤ 1 := by
  calc (legalRows.filter fun r => r.matches w).length
      = legalRows.countP (fun r => r.matches w) := List.countP_eq_length_filter.symm
    _ ≤ legalRows.countP (fun r => decide (opField r.pattern = opField w)) :=
        List.countP_mono_left fun r hr h => decide_eq_true (opField_of_matches hr h)
    _ ≤ 1 := countP_opField_legalRows_le_one (opField w)

/-- Settles O6: the table and the decoder ask the same of a word's fields, and the rows differ in `OP`. -/
theorem decodesExactlyTheLegalWords : Obligations.DecodesExactlyTheLegalWords := fun w =>
  ⟨legal_iff_masked, length_filter_matches_le_one w, exists_decode_eq_ok_iff.trans legal_iff_legalFields.symm⟩

end Sys2Proof
end

section
/-! PROOFS. The step of this hardware is the step of Laws/Step.lean at the hardware's parameters, so what is said there of a
response step and of the last micro-step of `INIT` holds of it (R81, R126). O12 from these. -/

namespace Sys2Proof.Machine

/-- `step` is `stepWith` at the hardware's parameters (R7). -/
theorem step_eq_stepWith (s : State) : step s = stepWith Params.hw s := by
  rw [step, stepWith, show exec = acceptInstr Params.hw from funext exec_eq_acceptInstr]

/-- The response on the port while it is delivered (R28, R81). -/
theorem rspPort_of_respond {s : State} {err : Bool} {value : Half} (hq : s.seq = .respond err value)
    (hr : s.rstHigh = false) : s.rspPort = some (responseWord err value) := by
  simp [State.rspPort, hq, hr]

/-- The response step of this hardware (R81). -/
theorem step_respond {s : State} {err : Bool} {value : Half} (hr : s.rstHigh = false)
    (hq : s.seq = .respond err value) :
    step s = .next { s with seq := .idle, rst := s.rst.tail, emitted := .rsp err value :: s.emitted } :=
  (step_eq_stepWith s).trans (stepWith_respond Params.hw hr hq)

/-- The last micro-step of `INIT` on this hardware writes `B2` low and leaves the response next (R81, R126). -/
theorem step_initRun_last {s : State} (hr : s.rstHigh = false) (hq : s.seq = .initRun 7)
    (ho : s.oe = allTerminals) :
    step s = .next { s with
      seq := .respond false 1
      coil := patternWith s.coil .b2 false
      rst := s.rst.tail
      emitted := .write .b2 false :: s.emitted } := by
  rw [step_eq_stepWith, stepWith_rest Params.hw hr hq (by decide) ho]
  rfl

/-- Settles O12: the response step by its equation, after which an idle block shows no response, and the last micro-step
of `INIT` by its own. -/
theorem responseStepDelivers : Obligations.ResponseStepDelivers := by
  refine ⟨fun s err value hq hr => ⟨rspPort_of_respond hq hr, step_respond hr hq, fun t ht => ?_⟩,
    fun s hq hr ho => ⟨_, step_initRun_last hr hq ho, rfl, rfl⟩⟩
  rw [step_respond hr hq] at ht
  injection ht with ht
  exact rspPort_of_idle (ht ▸ rfl)

end Sys2Proof.Machine
end

section
/-! PROOFS. The Angle Quantizer: the counter's successor table (R102), what a conversion call leaves in `DCC` and `SEQ`
(R80, R100, R150), and the bounds of each intermediate (R104). O24 and O26 from these. -/

namespace Sys2Proof.Machine

/-! ### The counter -/

/-- The advanced counter is 0 exactly when the counter was 2 (R102). -/
theorem nextDcc_hw_eq_zero_iff (c : Counter) : nextDcc Params.hw c = 0 ↔ c = 2 := by
  revert c
  decide

/-- The successor table of the counter (R102). -/
theorem nextDcc_hw_table {c : Counter} (hc : c ≠ 3) :
    (c = 0 ∧ nextDcc Params.hw c = 1) ∨ (c = 1 ∧ nextDcc Params.hw c = 2) ∨ (c = 2 ∧ nextDcc Params.hw c = 0) := by
  revert c
  decide

/-- As a number the advanced counter is below 3 (R102). -/
theorem nextDcc_hw_toNat_lt (c : Counter) : (nextDcc Params.hw c).toNat < 3 := by
  rw [nextDcc_hw_toNat]
  exact Nat.mod_lt _ (by decide)

/-- The count tests the correction on the advanced counter (R101, R102). -/
theorem pulseCount_eq_rawCount_add (p : Params) (c : Counter) (arg : Nat) :
    pulseCount p c arg = rawCount p arg + if nextDcc p c = 0 then 1 else 0 := rfl

/-! ### Conversion calls -/

/-- An accepted conversion call advances the counter (R21, R102). -/
theorem exec_conversion_dcc {i : Instr} {s t : State} (hi : isConversion i = true) (h : exec i s = .next t) :
    t.dcc = nextDcc Params.hw s.dcc := by
  obtain ⟨-, q, rfl, -⟩ := exec_cases h
  exact if_pos hi

/-- The meaning of `QUANT` on this hardware (R100). -/
theorem exec_quant (deg : Nat) (s : State) :
    exec (.quant deg) s =
      accepting (fun s => .next (respond false (BitVec.ofNat 16 (pulseCount Params.hw s.dcc deg))
        (advanceDcc Params.hw s))) s := rfl

/-- The meaning of `SETPOS` on this hardware (R150). -/
theorem exec_setpos (dir : Dir) (deg : Nat) (s : State) :
    exec (.setpos dir deg) s =
      accepting (fun s => startDrive dir (pulseCount Params.hw s.dcc deg) (advanceDcc Params.hw s)) s := rfl

/-- An accepted `QUANT` leaves the count as its response (R100). -/
theorem exec_quant_seq {deg : Nat} {s t : State} (h : exec (.quant deg) s = .next t) :
    t.seq = .respond false (BitVec.ofNat 16 (pulseCount Params.hw s.dcc deg)) := by
  rw [exec_quant] at h
  obtain ⟨-, h⟩ := accepting_eq_next h
  injection h with h
  rw [← h, respond_seq]

/-- An accepted `SETPOS` drives the count: the response at once for 0, otherwise the first sub-step (R150). -/
theorem exec_setpos_seq {dir : Dir} {deg : Nat} {s t : State} (h : exec (.setpos dir deg) s = .next t) :
    t.seq = if pulseCount Params.hw s.dcc deg = 0 then .respond false 0
      else .stepRun dir (pulseCount Params.hw s.dcc deg) 0 .energize := by
  rw [exec_setpos] at h
  obtain ⟨-, h⟩ := accepting_eq_next h
  rcases startDrive_eq_next h with ⟨hn, rfl⟩ | ⟨hn, -, rfl⟩
  · rw [if_pos hn]
  · rw [if_neg hn]

/-- Settles O24: either call leaves the advanced counter, and the rest is the successor table. -/
theorem conversionCallsAdvanceAndCorrect : Obligations.ConversionCallsAdvanceAndCorrect := by
  intro s t dir deg hc
  refine ⟨exec_quant_seq, exec_setpos_seq, fun h => ?_⟩
  have hdcc : t.dcc = nextDcc Params.hw s.dcc := h.elim (exec_conversion_dcc rfl) (exec_conversion_dcc rfl)
  rw [hdcc]
  exact ⟨nextDcc_hw_toNat s.dcc, pulseCount_eq_rawCount_add Params.hw s.dcc deg, nextDcc_hw_eq_zero_iff s.dcc,
    nextDcc_hw_table hc⟩

/-! ### Bounds -/

/-- The product of a 16-bit operand (R104). -/
theorem product_le {arg : Nat} (h : arg < 65536) : 200 * arg ≤ 13107000 := by omega

/-- The first quotient of a 16-bit operand (R104). -/
theorem firstQuotient_le {arg : Nat} (h : arg < 65536) : 200 * arg / 3600 ≤ 3640 :=
  Nat.div_le_div_right (product_le h)

/-- The raw count of a 16-bit operand (R104). -/
theorem rawCount_hw_le {arg : Nat} (h : arg < 65536) : rawCount Params.hw arg ≤ 910 := by
  rw [rawCount_hw]
  exact Nat.div_le_div_right (firstQuotient_le h)

/-- The count of a 16-bit operand is kept by the `VALUE` field (R78, R104). -/
theorem pulseCount_hw_toNat (c : Counter) {arg : Nat} (h : arg < 65536) :
    (BitVec.ofNat 16 (pulseCount Params.hw c arg)).toNat = pulseCount Params.hw c arg := by
  have hle := pulseCount_hw_le c h
  rw [BitVec.toNat_ofNat]
  exact Nat.mod_eq_of_lt (by omega)

/-- Settles O26: each intermediate is bounded by the one before it, every width follows from its bound, and the operand
65535 reaches the bounds, on a correction call that of the count. -/
theorem quantizerNeverOverflows : Obligations.QuantizerNeverOverflows := by
  refine ⟨fun dcc arg h => ?_, rfl, rfl, rfl⟩
  have hp := product_le h
  have hq := firstQuotient_le h
  have hr := rawCount_hw_le h
  exact ⟨hp, hp.trans_lt (by decide), hq, hq.trans_lt (by decide), rawCount_hw arg, hr, hr.trans_lt (by decide),
    pulseCount_hw_le dcc h, pulseCount_hw_toNat dcc h, nextDcc_hw_toNat_lt dcc⟩

end Sys2Proof.Machine
end

section
/-! PROOFS. The visiting orders (R120): the terminals by position, and that valid parameters have the counter-clockwise order
as the mirror of the clockwise one (R15). O30 from these. -/

namespace Sys2Proof

/-- The indices of the terminals at positions 0..3 are those of the order's list of terminals (R120). -/
theorem VisitOrder.map_idx_get (o : VisitOrder) :
    ([0, 1, 2, 3].map fun j => (o.get j).idx) = o.toList.map Terminal.idx := rfl

/-- Position `j` of the mirror is position `3 - j` of the order (R120). -/
theorem VisitOrder.get_mirror (o : VisitOrder) : ∀ j, o.mirror.get j = o.get (3 - j)
  | 0 | 1 | 2 | 3 => rfl

/-- Valid parameters have the counter-clockwise order as the mirror of the clockwise one (R15). -/
theorem Params.order_ccw_of_valid {p : Params} (h : p.valid = true) : p.order .ccw = (p.order .cw).mirror := by
  simp only [Params.valid, Bool.and_eq_true, decide_eq_true_eq] at h
  obtain ⟨⟨⟨⟨-, hmirror⟩, -⟩, -⟩, -⟩ := h
  exact hmirror

/-- This hardware's parameters meet the constraints of R15. -/
theorem Params.hw_valid : Params.hw.valid = true := by decide

/-- Settles O30: the indices are read off the two lists of terminals, and the orders are mirrored because the hardware's
parameters are valid. -/
theorem visitingOrdersMirror : Obligations.VisitingOrdersMirror := by
  refine ⟨(Params.hw.order .cw).map_idx_get, (Params.hw.order .ccw).map_idx_get, fun j => ?_⟩
  rw [Params.order_ccw_of_valid Params.hw_valid]
  exact (Params.hw.order .cw).get_mirror j

end Sys2Proof
end

section
/-! PROOFS. `IllegalCommand` (R161): the words that raise it, the step that accepts one and the response that follows, and that
nothing else makes an error response. O11 from these. -/

namespace Sys2Proof

/-- The decoder rejects exactly the words that are not legal (R77). -/
theorem exists_decode_eq_error_iff {w : Word} : (∃ e, decode w = .error e) ↔ legal w = false := by
  rw [← Bool.not_eq_true, legal_iff_legalFields, ← exists_decode_eq_ok_iff]
  cases decode w <;> simp

/-- A word with a bit of `RSV` set is illegal (R76, R77). -/
theorem legal_eq_false_of_rsvField_ne {w : Word} (h : rsvField w ≠ 0) : legal w = false := by
  rw [← Bool.not_eq_true, legal_iff_legalFields]
  exact fun hlegal => h hlegal.1

/-- Under any `OP` the low 28 bits can set a bit of `RSV` (R71). -/
theorem opField_and_rsvField_of_rsvSet (op : BitVec 4) :
    opField (op ++ (0x10000 : BitVec 28)) = op ∧ rsvField (op ++ (0x10000 : BitVec 28)) ≠ 0 := by
  revert op
  decide

/-- Every `OP` value has an illegal word (R77). -/
theorem exists_illegal_word (op : BitVec 4) : ∃ w : Word, opField w = op ∧ legal w = false := by
  obtain ⟨hop, hrsv⟩ := opField_and_rsvField_of_rsvSet op
  exact ⟨_, hop, legal_eq_false_of_rsvField_ne hrsv⟩

end Sys2Proof

namespace Sys2Proof.Machine

/-! ### An illegal word is answered -/

/-- An idle step that accepts an illegal word (R80, R161). -/
theorem step_illegal {s : State} {w : Word} {moves : List HostMove} (hr : s.rstHigh = false) (hq : s.seq = .idle)
    (hc : s.cmd = .present w :: moves) (hw : legal w = false) :
    step s = .next { s with cmd := moves, rst := s.rst.tail, seq := .respond true 0 } := by
  obtain ⟨e, hd⟩ := exists_decode_eq_error_iff.mpr hw
  rw [step_eq_stepWith, stepWith_low _ hr, runStep, tick_seq, hq]
  simp [idleStep, hc, acceptWord, hd, raiseIllegalCommand, respond, State.tick]

/-- An illegal word and its response, the two steps together: one event, and the block is idle again (R161). -/
theorem run_illegal {s : State} {w : Word} {moves : List HostMove} (hr : s.RstLow 2) (hq : s.seq = .idle)
    (hc : s.cmd = .present w :: moves) (hw : legal w = false) :
    run 2 s = .next (State.emitAll [.rsp true 0] { s with cmd := moves, rst := s.rst.drop 2 }) := by
  have answer : step { s with cmd := moves, rst := s.rst.tail, seq := .respond true 0 } = _ :=
    step_respond (hr.next rfl).now rfl
  rw [run_succ 1 (step_illegal hr.now hq hc hw), run_one answer]
  simp [State.emitAll, hq, ← List.drop_one]

/-! ### Nothing else makes an error response -/

/-- No accepted command leaves an error response (R78, R161). -/
theorem exec_seq_ne_error {i : Instr} {s t : State} (h : exec i s = .next t) (value : Half) :
    t.seq ≠ .respond true value := by
  obtain ⟨-, q, rfl, ⟨-, rfl⟩ | ⟨-, -, rfl⟩ | ⟨-, -, rfl⟩⟩ := exec_cases h <;> simp

/-- The end of a pulse leaves no error response (R121). -/
theorem afterPulse_ne_error (dir : Dir) (rem : Nat) (pos : Fin 4) (value : Half) :
    afterPulse dir rem pos ≠ .respond true value := by
  unfold afterPulse
  split_ifs <;> simp

/-- A step that makes an error response the next thing accepts an illegal word, and the response has value 0 (R161). -/
theorem step_seq_eq_error {s t : State} {value : Half} (h : step s = .next t) (ht : t.seq = .respond true value) :
    value = 0 ∧ s.rstHigh = false ∧ s.seq = .idle ∧ ∃ w moves, s.cmd = .present w :: moves ∧ legal w = false := by
  cases step_cases h with
  | illegal w moves e hr hq hc hd =>
    rw [raiseIllegalCommand_seq] at ht
    injection ht with _ hvalue
    exact ⟨hvalue.symm, hr, hq, w, moves, hc, exists_decode_eq_error_iff.mp ⟨e, hd⟩⟩
  | accepts w moves i t hr hq hc hd hexec => exact absurd ht (exec_seq_ne_error hexec value)
  | waits _ hq | pauses _ _ hq => simp [hq] at ht
  | writes u v q _ _ hwrite =>
    rw [emit_seq] at ht
    obtain ⟨k, hk, -, -, -, hq⟩ | ⟨k, -, -, -, hq⟩ | ⟨dir, rem, pos, -, -, -, hq⟩ | ⟨dir, rem, pos, -, -, -, hq⟩ := hwrite
    · split_ifs at hq <;> simp [hq] at ht
    · split_ifs at hq <;> simp [hq] at ht
    · simp [hq] at ht
    · exact absurd (hq.symm.trans ht) (afterPulse_ne_error dir rem pos value)
  | reset | configures | dwells | delivers => simp at ht

/-- Settles O11: the accepting step and the response step by their equations, and the ways a step ends for the rest. -/
theorem illegalCommandIsAnsweredAndSkipped : Obligations.IllegalCommandIsAnsweredAndSkipped := by
  refine ⟨fun s w moves hr hq hc hw => ⟨step_illegal hr.now hq hc hw, ?_, run_illegal hr hq hc hw⟩,
    exists_illegal_word, fun _ _ _ h => exec_seq_ne_error h, fun _ _ _ => step_seq_eq_error⟩
  have hlow : State.rstHigh { s with cmd := moves, rst := s.rst.tail, seq := .respond true 0 } = false :=
    (hr.next rfl).now
  exact rspPort_of_respond rfl hlow

end Sys2Proof.Machine
end

section
/-! PROOFS. Encoding and decoding. The word of a command is assembled from the command's fields, and the decoder reads the same
fields back (R71 to R75, R82); so O4 and O5, and O3 on the worked encodings. Then O7, the illegal words by the bits of
the word as numbers (R77), and O8, the layout of a response (R78). -/

namespace Sys2Proof

/-! ### Decoding the word of a command -/

/-- The operand of a well-formed command is kept by the `ARG` field (R75). -/
theorem toNat_ofNat_of_argFits {n : Nat} (h : argFits n = true) : (BitVec.ofNat 16 n).toNat = n := by
  rw [BitVec.toNat_ofNat]
  exact Nat.mod_eq_of_lt (of_decide_eq_true h)

/-- A word without operands decodes to the command of its `OP` (R73). -/
theorem takeNone_assemble (op : BitVec 4) (i : Instr) : takeNone (assemble op false 0#16) i = .ok i := by
  simp [takeNone]

/-- A word with an `ARG` decodes to the command with that operand (R75). -/
theorem takeArg_assemble {n : Nat} (op : BitVec 4) (f : Nat → Instr) (h : argFits n = true) :
    takeArg (assemble op false (BitVec.ofNat 16 n)) f = .ok (f n) := by
  rw [takeArg, dirField_assemble, argField_assemble, toNat_ofNat_of_argFits h]
  exact if_neg Bool.false_ne_true

/-- A word with `DIR` and `ARG` decodes to the command with those operands (R74, R75). -/
theorem takeDirArg_assemble {n : Nat} (op : BitVec 4) (d : Dir) (f : Dir → Nat → Instr) (h : argFits n = true) :
    takeDirArg (assemble op (bitOfDir d) (BitVec.ofNat 16 n)) f = .ok (f d n) := by
  rw [takeDirArg, dirField_assemble, argField_assemble, toNat_ofNat_of_argFits h, dirOfBit_bitOfDir]

/-- Decoding the word of a well-formed command gives the command back (R82). -/
theorem decode_encode {i : Instr} (h : i.wellFormed = true) : decode (encode i) = .ok i := by
  cases i with
  | init | fini | stepcw | stepccw => simp [decode, encode, opCode, dirBit, argBits, takeNone_assemble]
  | quant deg => simpa [decode, encode, opCode, dirBit, argBits] using takeArg_assemble 4 .quant h
  | setpos dir deg => simpa [decode, encode, opCode, dirBit, argBits] using takeDirArg_assemble 3 dir .setpos h
  | drive dir n => simpa [decode, encode, opCode, dirBit, argBits] using takeDirArg_assemble 5 dir .drive h

/-- Settles O4: the decoder reads the fields the word was assembled from. -/
theorem decodeOfEncode : Obligations.DecodeOfEncode := fun _ => decode_encode

/-! ### The word of a decoded command -/

/-- What decodes has `RSV` zero and an `OP` that is not reserved (R77). -/
theorem decode_eq_ok_guards {w : Word} {i : Instr} (h : decode w = .ok i) :
    ¬ (opField w = 0 ∨ 8 ≤ (opField w).toNat) ∧ rsvField w = 0 := by
  have hlegal : LegalFields w := exists_decode_eq_ok_iff.mp ⟨i, h⟩
  exact ⟨hlegal.not_reservedOp, hlegal.1⟩

/-- The fields of a word that decodes are those of the command (R71 to R75). -/
theorem fields_of_decode {w : Word} {i : Instr} (h : decode w = .ok i) :
    opField w = opCode i ∧ rsvField w = 0 ∧ dirField w = dirBit i ∧ argField w = argBits i := by
  obtain ⟨hop, hrsv⟩ := decode_eq_ok_guards h
  rcases op_cases (opField w) with h0 | hop | hop | hop | hop | hop | hop | hop
  · exact absurd h0 hop
  case inr.inr.inr.inl | inr.inr.inr.inr.inr.inl =>
    simp only [decode, hop, hrsv, takeDirArg] at h
    injection h with h
    subst h
    simp [hop, hrsv, opCode, dirBit, argBits]
  case inr.inr.inr.inr.inl =>
    obtain ⟨hdir, rfl⟩ := takeArg_eq_ok (by simpa [decode, hop, hrsv] using h)
    simp [hop, hrsv, hdir, opCode, dirBit, argBits]
  all_goals
    obtain ⟨hdir, harg, rfl⟩ := takeNone_eq_ok (by simpa [decode, hop, hrsv] using h)
    simp [hop, hrsv, hdir, harg, opCode, dirBit, argBits]

/-- The word of the command a word decodes to is that word (R71, R82). -/
theorem encode_of_decode {w : Word} {i : Instr} (h : decode w = .ok i) : encode i = w :=
  (eq_assemble_iff.mpr (fields_of_decode h)).symm

/-- Settles O5: the word has the command's fields, so it is the word assembled from them. -/
theorem encodeOfDecode : Obligations.EncodeOfDecode := fun _ _ h => ⟨decode_wellFormed h, encode_of_decode h⟩

/-- Settles O3: each legal word is the word of its command, which O4 decodes, and the illegal ones match no row. -/
theorem workedEncodingsDecode : Obligations.WorkedEncodingsDecode :=
  ⟨decode_encode (i := .setpos .cw 900) rfl, decode_encode (i := .setpos .ccw 900) rfl,
    decode_encode (i := .quant 18) rfl, decode_encode (i := .quant 36) rfl, decode_encode (i := .quant 1800) rfl,
    decode_encode (i := .quant 3600) rfl, decode_encode (i := .drive .cw 2) rfl,
    decode_encode (i := .drive .ccw 2) rfl, decode_encode (i := .drive .cw 0) rfl, decode_encode (i := .init) rfl,
    decode_encode (i := .fini) rfl, decode_encode (i := .stepcw) rfl, decode_encode (i := .stepccw) rfl, by decide⟩

/-! ### The fields as numbers -/

theorem opField_toNat (w : Word) : (opField w).toNat = w.toNat / 2 ^ 28 := by
  have hw := w.isLt
  rw [opField, BitVec.extractLsb'_toNat, Nat.shiftRight_eq_div_pow]
  omega

theorem rsvField_toNat (w : Word) : (rsvField w).toNat = w.toNat / 2 ^ 16 % 2 ^ 11 := by
  rw [rsvField, BitVec.extractLsb'_toNat, Nat.shiftRight_eq_div_pow]

theorem argField_toNat (w : Word) : (argField w).toNat = w.toNat % 2 ^ 16 := by
  rw [argField, BitVec.extractLsb'_toNat, Nat.shiftRight_zero]

theorem dirField_eq_decide (w : Word) : dirField w = decide (w.toNat / 2 ^ 27 % 2 = 1) := by
  rw [dirField, BitVec.getLsbD, Nat.testBit_eq_decide_div_mod_eq]

/-- The conditions on a legal word's fields, as numbers (R72, R73). -/
theorem legalFields_iff_toNat {w : Word} :
    LegalFields w ↔ w.toNat / 2 ^ 16 % 2 ^ 11 = 0 ∧
      ((w.toNat / 2 ^ 28 ∈ [1, 2, 6, 7] ∧ w.toNat / 2 ^ 27 % 2 = 0 ∧ w.toNat % 2 ^ 16 = 0) ∨
        (w.toNat / 2 ^ 28 = 4 ∧ w.toNat / 2 ^ 27 % 2 = 0) ∨ w.toNat / 2 ^ 28 = 3 ∨ w.toNat / 2 ^ 28 = 5) := by
  unfold LegalFields
  simp only [BitVec.toNat_eq, opField_toNat, rsvField_toNat, argField_toNat, dirField_eq_decide]
  simp

/-- Settles O7: the negation of the conditions on a legal word's fields. -/
theorem illegalWordsByField : Obligations.IllegalWordsByField := by
  intro w
  rw [← Bool.not_eq_true, legal_iff_legalFields, legalFields_iff_toNat]
  simp only [List.mem_cons, List.not_mem_nil, or_false]
  omega

/-! ### The response word -/

/-- Settles O8: bit `b` of the word is taken from the part of the concatenation it falls in. -/
theorem responseWordLayout : Obligations.ResponseWordLayout := by
  intro err value
  refine ⟨?_, fun b hlow hhigh => ?_, ?_⟩
  · rw [Machine.responseWord, BitVec.getLsbD_append, BitVec.getLsbD_append]
    simp
  · have hvalue : ¬ b < 16 := by omega
    have hzeros : b - 16 < 15 := by omega
    rw [Machine.responseWord, BitVec.getLsbD_append, BitVec.getLsbD_append, if_neg hvalue, if_pos hzeros]
    exact BitVec.getLsbD_zero
  · have hlow : (Machine.responseWord err value).extractLsb' 0 16 = value := BitVec.extractLsb'_append_eq_right
    simpa using congrArg BitVec.toNat hlow

end Sys2Proof
end

section
/-! PROOFS. The invariant (R34), said once for each form of `SEQ`; that reset meets it and every step keeps it. O47 and O48. -/

namespace Sys2Proof.Machine

/-! ### The invariant by `SEQ` -/

theorem inv_iff_of_idle {s : State} (hq : s.seq = .idle) : s.Inv ↔ s.dcc ≠ 3 ∧ oeSettled s.oe = true := by
  simp [State.Inv, seqSafe, hq]

theorem inv_iff_of_initRun {s : State} {k : Fin 8} (hq : s.seq = .initRun k) :
    s.Inv ↔ s.dcc ≠ 3 ∧ (s.oe = allTerminals ∨ (k.val < 4 ∧ s.oe = BitVec.ofNat 4 (2 ^ k.val - 1))) := by
  simp [State.Inv, seqSafe, hq]

theorem not_inv_of_finiRun {s : State} {k : Fin 4} (hq : s.seq = .finiRun k) : ¬ s.Inv := by
  simp [State.Inv, seqSafe, hq]

theorem inv_iff_of_stepRun {s : State} {dir : Dir} {rem : Nat} {pos : Fin 4} {ph : Phase}
    (hq : s.seq = .stepRun dir rem pos ph) :
    s.Inv ↔ s.dcc ≠ 3 ∧ s.oe = allTerminals ∧ 1 ≤ rem ∧ rem ≤ 65535 ∧
      (ph = .energize ∨ patternBit s.coil ((Params.hw.order dir).get pos) = true) := by
  simp [State.Inv, seqSafe, hq, and_assoc]

theorem inv_iff_of_respond {s : State} {err : Bool} {value : Half} (hq : s.seq = .respond err value) :
    s.Inv ↔ s.dcc ≠ 3 ∧ oeSettled s.oe = true ∧ value.toNat ≤ 911 ∧ (err = true → value = 0) := by
  cases err <;> simp [State.Inv, seqSafe, hq, and_assoc]

/-- Settles O47: an idle block with `DCC` = 1 and `OE` clear. -/
theorem resetMeetsTheInvariant : Obligations.ResetMeetsTheInvariant := by
  refine (inv_iff_of_idle reset_seq).mpr ⟨?_, ?_⟩
  · rw [reset_dcc]
    decide
  · rw [reset_oe]
    decide

/-! ### Acceptance -/

@[simp] theorem oeSettled_allTerminals : oeSettled allTerminals = true := rfl

/-- `OE` is settled when it is clear or full (R34 (b)). -/
theorem oeSettled_iff {oe : Pattern} : oeSettled oe = true ↔ oe = 0 ∨ oe = allTerminals := by
  simp [oeSettled]

/-- No command makes the counter 3 (R21). -/
theorem commandDcc_hw_ne_three {c : Counter} (hc : c ≠ 3) (i : Instr) : commandDcc Params.hw c i ≠ 3 := by
  unfold commandDcc
  split
  · exact nextDcc_hw_ne_three c
  · exact hc

/-- The response of a well-formed command is at most 911 (R104). -/
theorem commandValue_hw_le (c : Counter) {i : Instr} (hi : i.wellFormed = true) :
    (commandValue Params.hw c i).toNat ≤ 911 := by
  cases i with
  | quant deg =>
    have hdeg : deg < 65536 := of_decide_eq_true hi
    exact (pulseCount_hw_toNat c hdeg).trans_le (pulseCount_hw_le c hdeg)
  | init | fini | setpos | drive | stepcw | stepccw => simp [commandValue]

/-- A well-formed command drives at most 65535 sub-steps (R75, R104). -/
theorem subSteps_hw_le (c : Counter) {i : Instr} (hi : i.wellFormed = true) : subSteps Params.hw c i ≤ 65535 := by
  cases i with
  | setpos dir deg => exact (pulseCount_hw_le c (of_decide_eq_true hi)).trans (by decide)
  | drive dir n => exact Nat.le_of_lt_succ (of_decide_eq_true hi)
  | init | fini | quant | stepcw | stepccw => simp [subSteps]

/-- On this hardware a command that needs the terminals drives at least one sub-step (R182). -/
theorem one_le_subSteps_hw {c : Counter} {i : Instr} (h : needsTerminals Params.hw c i = true) :
    1 ≤ subSteps Params.hw c i := by
  cases i with
  | setpos | drive => exact Nat.one_le_iff_ne_zero.mpr (of_decide_eq_true h)
  | stepcw | stepccw => exact Nat.le_refl 1
  | init | fini | quant => cases h

/-- The acceptance of a well-formed command keeps the invariant (R80). -/
theorem exec_keeps_inv {i : Instr} {s t : State} (hs : s.Inv) (hi : i.wellFormed = true) (h : exec i s = .next t) :
    t.Inv := by
  obtain ⟨hq, q, rfl, hstart⟩ := exec_cases h
  obtain ⟨hdcc, hoe⟩ := (inv_iff_of_idle hq).mp hs
  have hdcc' := commandDcc_hw_ne_three hdcc i
  obtain ⟨-, rfl⟩ | ⟨-, -, rfl⟩ | ⟨hneeds, hall, rfl⟩ := hstart
  · exact (inv_iff_of_initRun (k := 0) rfl).mpr ⟨hdcc', (oeSettled_iff.mp hoe).symm.imp_right fun h0 => ⟨by decide, h0⟩⟩
  · exact (inv_iff_of_respond rfl).mpr ⟨hdcc', hoe, commandValue_hw_le s.dcc hi, by simp⟩
  · exact (inv_iff_of_stepRun rfl).mpr ⟨hdcc', hall, one_le_subSteps_hw hneeds, subSteps_hw_le s.dcc hi, .inl rfl⟩

/-! ### The micro-steps -/

/-- Configuring a terminal when all are configured changes nothing. -/
@[simp] theorem patternWith_allTerminals (t : Terminal) : patternWith allTerminals t true = allTerminals := by
  cases t <;> rfl

/-- A configuration of `INIT` keeps `OE` at what the first `INIT` has set, or full (R34 (b), R126). -/
theorem configure_oe {k : Fin 8} (hk : k.val < 4) {oe : Pattern}
    (h : oe = allTerminals ∨ (k.val < 4 ∧ oe = BitVec.ofNat 4 (2 ^ k.val - 1))) :
    patternWith oe (Terminal.ofIdx ⟨k.val, hk⟩) true = allTerminals ∨
      ((k + 1).val < 4 ∧ patternWith oe (Terminal.ofIdx ⟨k.val, hk⟩) true = BitVec.ofNat 4 (2 ^ (k + 1).val - 1)) := by
  obtain rfl | ⟨-, rfl⟩ := h
  · exact .inl (patternWith_allTerminals _)
  · revert k
    decide

/-- The end of a pulse keeps the invariant (R26, R121). -/
theorem inv_of_afterPulse {s : State} {dir : Dir} {rem : Nat} {pos : Fin 4} (hq : s.seq = afterPulse dir rem pos)
    (hdcc : s.dcc ≠ 3) (hall : s.oe = allTerminals) (hlow : 1 ≤ rem) (hhigh : rem ≤ 65535) : s.Inv := by
  unfold afterPulse at hq
  split_ifs at hq with hpos hrem
  · exact (inv_iff_of_stepRun hq).mpr ⟨hdcc, hall, hlow, hhigh, .inl rfl⟩
  · exact (inv_iff_of_stepRun hq).mpr ⟨hdcc, hall, by omega, by omega, .inl rfl⟩
  · exact (inv_iff_of_respond hq).mpr ⟨hdcc, hall ▸ oeSettled_allTerminals, by simp, by simp⟩

/-- Settles O48, by the ways a step ends. -/
theorem stepsKeepTheInvariant : Obligations.StepsKeepTheInvariant := by
  intro s t hs h
  cases step_cases h with
  | reset => exact (inv_iff_of_idle rfl).mpr ⟨show Params.hw.dccInit ≠ 3 by decide, rfl⟩
  | waits _ hq => exact (inv_iff_of_idle hq).mpr ((inv_iff_of_idle hq).mp hs)
  | pauses _ _ hq => exact (inv_iff_of_idle hq).mpr ((inv_iff_of_idle hq).mp hs)
  | illegal w moves e _ hq =>
    obtain ⟨hdcc, hoe⟩ := (inv_iff_of_idle hq).mp hs
    exact (inv_iff_of_respond rfl).mpr ⟨hdcc, hoe, by simp, by simp⟩
  | accepts w moves i t _ hq _ hd hexec =>
    have hs' : State.Inv { s.tick with cmd := moves } := (inv_iff_of_idle hq).mpr ((inv_iff_of_idle hq).mp hs)
    exact exec_keeps_inv hs' (decode_wellFormed hd) hexec
  | configures k hk _ hq =>
    obtain ⟨hdcc, hoe⟩ := (inv_iff_of_initRun hq).mp hs
    exact (inv_iff_of_initRun rfl).mpr ⟨hdcc, configure_oe hk hoe⟩
  | writes u v q _ _ hwrite =>
    obtain ⟨k, hk, hq, -, -, rfl⟩ | ⟨k, hq, -⟩ | ⟨dir, rem, pos, hq, rfl, rfl, rfl⟩ | ⟨dir, rem, pos, hq, -, -, rfl⟩ := hwrite
    · obtain ⟨hdcc, hoe⟩ := (inv_iff_of_initRun hq).mp hs
      have hall : s.oe = allTerminals := hoe.elim id fun h => absurd h.1 (by omega)
      by_cases hlast : k.val < 7
      · exact (inv_iff_of_initRun (if_pos hlast)).mpr ⟨hdcc, .inl hall⟩
      · exact (inv_iff_of_respond (if_neg hlast)).mpr ⟨hdcc, hall ▸ oeSettled_allTerminals, by decide, by simp⟩
    · exact absurd hs (not_inv_of_finiRun hq)
    · obtain ⟨hdcc, hall, hlow, hhigh, -⟩ := (inv_iff_of_stepRun hq).mp hs
      exact (inv_iff_of_stepRun rfl).mpr ⟨hdcc, hall, hlow, hhigh, .inr (by simp)⟩
    · obtain ⟨hdcc, hall, hlow, hhigh, -⟩ := (inv_iff_of_stepRun hq).mp hs
      exact inv_of_afterPulse rfl hdcc hall hlow hhigh
  | dwells dir rem pos _ hq =>
    obtain ⟨hdcc, hall, hlow, hhigh, hph⟩ := (inv_iff_of_stepRun hq).mp hs
    exact (inv_iff_of_stepRun rfl).mpr ⟨hdcc, hall, hlow, hhigh, .inr (hph.resolve_left (by decide))⟩
  | delivers err value _ hq =>
    obtain ⟨hdcc, hoe, -⟩ := (inv_iff_of_respond hq).mp hs
    exact (inv_iff_of_idle rfl).mpr ⟨hdcc, hoe⟩

end Sys2Proof.Machine
end

section
/-! PROOFS. Acceptance (R80), said once for all commands and any parameters: what is accepted, in which state the command
starts, and what is refused (U1, U11). O20, O21 and O22; then the steps that accept or wait: O2, O9, O10, O46 and O52. -/

namespace Sys2Proof.Machine

/-! ### Where a command starts -/

/-- Where `SEQ` goes when a drive of `n` sub-steps is accepted (R80, R124). -/
def driveStart (dir : Dir) (n : Nat) : Seq := if n = 0 then .respond false 0 else .stepRun dir n 0 .energize

/-- Where `SEQ` goes when a command is accepted with the counter at `c` (R80). -/
def startSeq (p : Params) (c : Counter) (i : Instr) : Seq :=
  match i with
  | .init => .initRun 0
  | .fini => if p.finiDeenergize then .finiRun 0 else .respond false 0
  | .quant _ => .respond false (commandValue p c i)
  | .setpos _ _ => driveStart (commandDir i) (subSteps p c i)
  | .drive _ _ => driveStart (commandDir i) (subSteps p c i)
  | .stepcw => driveStart (commandDir i) (subSteps p c i)
  | .stepccw => driveStart (commandDir i) (subSteps p c i)

theorem driveStart_of_ne_zero {n : Nat} (dir : Dir) (h : n ≠ 0) : driveStart dir n = .stepRun dir n 0 .energize :=
  if_neg h

theorem driveStart_ne_idle (dir : Dir) (n : Nat) : driveStart dir n ≠ .idle := by
  unfold driveStart
  split_ifs <;> simp

/-- An accepted command is running (R80). -/
theorem startSeq_ne_idle (p : Params) (c : Counter) (i : Instr) : startSeq p c i ≠ .idle := by
  cases i with
  | init | quant => simp [startSeq]
  | fini =>
    unfold startSeq
    split_ifs <;> simp
  | setpos | drive | stepcw | stepccw => exact driveStart_ne_idle _ _

/-! ### Accepted and refused -/

theorem startWriting_configured {start : Seq} {s : State} (h : s.oe = allTerminals) :
    startWriting start s = .next { s with seq := start } := if_pos h

theorem startWriting_unconfigured {start : Seq} {s : State} (h : s.oe ≠ allTerminals) :
    startWriting start s = .refused .terminalsNotConfigured := if_neg h

/-- A drive of no sub-step starts whatever `OE` is, any other with the terminals configured (R124). -/
theorem startDrive_configured {dir : Dir} {n : Nat} {s : State} (h : n ≠ 0 → s.oe = allTerminals) :
    startDrive dir n s = .next { s with seq := driveStart dir n } := by
  by_cases hn : n = 0
  · subst hn
    rfl
  · rw [startDrive, if_neg hn, startWriting_configured (h hn), driveStart_of_ne_zero dir hn]

theorem startDrive_unconfigured {dir : Dir} {n : Nat} {s : State} (hn : n ≠ 0) (h : s.oe ≠ allTerminals) :
    startDrive dir n s = .refused .terminalsNotConfigured := by
  rw [startDrive, if_neg hn, startWriting_unconfigured h]

/-- What acceptance does once the block is found idle (R80). -/
def acceptEffect (p : Params) (i : Instr) (s : State) : Result :=
  match i with
  | .init => .next { s with seq := .initRun 0 }
  | .fini => if p.finiDeenergize then startWriting (.finiRun 0) s else .next (respond false 0 s)
  | .quant _ => .next (respond false (commandValue p s.dcc i) (advanceDcc p s))
  | .setpos dir _ => startDrive dir (subSteps p s.dcc i) (advanceDcc p s)
  | .drive dir n => startDrive dir n s
  | .stepcw => startDrive .cw 1 s
  | .stepccw => startDrive .ccw 1 s

/-- Every command is accepted by an idle block only (R80). -/
theorem acceptInstr_eq_accepting (p : Params) (i : Instr) (s : State) :
    acceptInstr p i s = accepting (acceptEffect p i) s := by
  cases i <;> rfl

/-- An idle block accepts a command whose terminals, if it needs them, are configured (R80, R182). -/
theorem acceptInstr_idle {p : Params} {i : Instr} {s : State} (hq : s.seq = .idle)
    (ho : needsTerminals p s.dcc i = true → s.oe = allTerminals) :
    acceptInstr p i s = .next { s with dcc := commandDcc p s.dcc i, seq := startSeq p s.dcc i } := by
  rw [acceptInstr_eq_accepting, accepting_idle _ hq]
  cases i with
  | init | quant => rfl
  | fini =>
    have ho : p.finiDeenergize = true → s.oe = allTerminals := ho
    rw [acceptEffect, startSeq]
    split_ifs with hf
    · exact startWriting_configured (ho hf)
    · rfl
  | setpos | drive => exact startDrive_configured fun hn => ho (decide_eq_true hn)
  | stepcw | stepccw => exact startDrive_configured fun _ => ho rfl

/-- A command that would write a terminal before all are configured is refused as a whole (U1). -/
theorem acceptInstr_unconfigured {p : Params} {i : Instr} {s : State} (hq : s.seq = .idle)
    (hn : needsTerminals p s.dcc i = true) (ho : s.oe ≠ allTerminals) :
    acceptInstr p i s = .refused .terminalsNotConfigured := by
  rw [acceptInstr_eq_accepting, accepting_idle _ hq]
  cases i with
  | init | quant => cases hn
  | fini => exact (if_pos hn).trans (startWriting_unconfigured ho)
  | setpos | drive => exact startDrive_unconfigured (of_decide_eq_true hn) ho
  | stepcw | stepccw => exact startDrive_unconfigured Nat.one_ne_zero ho

/-- A busy block refuses every command (U11). -/
theorem acceptInstr_busy {p : Params} {i : Instr} {s : State} (hq : s.seq ≠ .idle) :
    acceptInstr p i s = .refused .commandPortBusy := by
  rw [acceptInstr_eq_accepting, accepting_busy _ hq]

/-! ### Acceptance on this hardware -/

theorem exec_idle {i : Instr} {s : State} (hq : s.seq = .idle)
    (ho : needsTerminals Params.hw s.dcc i = true → s.oe = allTerminals) :
    exec i s = .next { s with dcc := commandDcc Params.hw s.dcc i, seq := startSeq Params.hw s.dcc i } := by
  rw [exec_eq_acceptInstr, acceptInstr_idle hq ho]

theorem exec_unconfigured {i : Instr} {s : State} (hq : s.seq = .idle)
    (hn : needsTerminals Params.hw s.dcc i = true) (ho : s.oe ≠ allTerminals) :
    exec i s = .refused .terminalsNotConfigured := by
  rw [exec_eq_acceptInstr, acceptInstr_unconfigured hq hn ho]

theorem exec_busy {i : Instr} {s : State} (hq : s.seq ≠ .idle) : exec i s = .refused .commandPortBusy := by
  rw [exec_eq_acceptInstr, acceptInstr_busy hq]

/-- Settles O20: acceptance replaces `SEQ`, by the start of a command, and for a conversion call `DCC`. -/
theorem acceptanceFrame : Obligations.AcceptanceFrame := by
  intro i s t h
  obtain ⟨hq, q, rfl, hstart⟩ := exec_cases h
  have hrunning : q ≠ .idle := by
    obtain ⟨-, rfl⟩ | ⟨-, -, rfl⟩ | ⟨-, -, rfl⟩ := hstart <;> simp
  exact ⟨hq, hrunning, rfl, rfl, rfl, rfl, rfl, fun hi => by simp [commandDcc, hi]⟩

/-- Settles O21: `exec_idle` and `exec_unconfigured` together. -/
theorem refusedExactlyBeforeInit : Obligations.RefusedExactlyBeforeInit := by
  refine fun i s hq => ⟨fun h => ⟨_, exec_idle hq fun hn => ?_⟩, exec_unconfigured hq⟩
  exact h.resolve_left (by simp [hn])

/-- Settles O22: acceptance requires `SEQ = Idle`. -/
theorem secondAgentIsRefused : Obligations.SecondAgentIsRefused := fun _ _ => exec_busy

/-! ### Steps that accept or wait -/

/-- A step with `rst` high forces the reset state (R180). -/
theorem step_reset {s : State} (hr : s.rstHigh = true) : step s = .next (forceReset Params.hw s.tick) := if_pos hr

/-- A step with `rst` low is the next micro-step (R26). -/
theorem step_low {s : State} (hr : s.rstHigh = false) : step s = runStep Params.hw exec s.tick := by
  rw [step, cycle, hr]
  exact if_neg Bool.false_ne_true

/-- Settles O2: `rst` high hides the ports and forces the step. -/
theorem resetForcesEveryState : Obligations.ResetForcesEveryState := by
  intro s hr
  have hrsp : s.rspPort = none := by
    unfold State.rspPort
    split <;> simp [hr]
  exact ⟨⟨by simp [State.cmdReady, hr], hrsp⟩, step_reset hr⟩

/-- Settles O46: an accepted command means the same in both. -/
theorem stepHasTheHardwareParameters : Obligations.StepHasTheHardwareParameters := step_eq_stepWith

/-- An idle step that accepts a legal word is `exec` of its command (R80). -/
theorem step_accept {s : State} {w : Word} {moves : List HostMove} {i : Instr} (hr : s.rstHigh = false)
    (hq : s.seq = .idle) (hc : s.cmd = .present w :: moves) (hd : decode w = .ok i) :
    step s = exec i { s with cmd := moves, rst := s.rst.tail } := by
  rw [step_eq_stepWith, stepWith_accept _ hr hq hc hd, exec_eq_acceptInstr]

/-- Settles O9, by the equation of an accepting step. -/
theorem stepRunsTheDecodedCommand : Obligations.StepRunsTheDecodedCommand := fun _ _ _ _ => step_accept

/-- A table word that is read as a command decodes to it (R70). -/
theorem decode_of_decodeTableWord {nbits w : Nat} {i : Instr} (h : decodeTableWord nbits w = some i) :
    decode (wordOfTable nbits w) = .ok i := by
  unfold decodeTableWord at h
  split at h
  · cases hd : decode (wordOfTable nbits w) <;> simp_all
  · cases h

/-- With a word presented `rst` is low, and its later levels are as they were. -/
theorem presenting_rst (w : Word) (s : State) :
    (s.presenting w).rstHigh = false ∧ (s.presenting w).rst.tail = s.rst.tail := by
  cases s with
  | mk dcc coil oe seq cmd rst emitted =>
    cases rst with
    | nil => exact ⟨rfl, rfl⟩
    | cons level later => cases level <;> exact ⟨rfl, rfl⟩

/-- Settles O10: the placed word is at the head of an idle block's port with `rst` low. -/
theorem placedWordRuns : Obligations.PlacedWordRuns := by
  intro s nbits w i h
  obtain ⟨hlow, htail⟩ := presenting_rst (wordOfTable nbits w) s
  rw [State.withFetchWord, step_accept hlow rfl rfl (decode_of_decodeTableWord h), htail]
  rfl

/-- Settles O52: with no word at the port an idle step only takes a pause. -/
theorem idleBlockWaits : Obligations.IdleBlockWaits := by
  intro s hr hq hv
  rw [step_low hr, runStep, tick_seq, hq]
  unfold State.cmdValid at hv
  cases hc : s.cmd with
  | nil => simp [idleStep, hc, State.tick, hq]
  | cons m moves =>
    cases m with
    | pause => simp [idleStep, hc, State.tick, hq]
    | present w => simp [hc] at hv

end Sys2Proof.Machine
end

section
/-! PROOFS. The count of the Angle Quantizer in closed form (R105), for small angles (R107) and over three calls (R109). O25,
O27 and O28. -/

namespace Sys2Proof.Machine

/-! ### The raw count -/

/-- The raw count with any number of units in a degree is one division (R105). -/
theorem rawCount_scaled (scale arg : Nat) :
    rawCount { Params.hw with degScale := scale } arg = 5 * arg / (36 * scale) :=
  calc 200 * arg / (360 * scale) / 4
      = 40 * (5 * arg) / (40 * (36 * scale)) := by
        rw [Nat.div_div_eq_div_mul]
        congr 1 <;> ring
    _ = 5 * arg / (36 * scale) := Nat.mul_div_mul_left _ _ (by decide)

/-- The raw count of this hardware is one division (R105). -/
theorem rawCount_hw_eq_div (arg : Nat) : rawCount Params.hw arg = arg / 72 := by
  have hscaled : rawCount Params.hw arg = 5 * arg / (36 * 10) := rawCount_scaled 10 arg
  omega

/-- Settles O25: 200, 360 and the second divisor 4 share the factor 40. -/
theorem rawCountClosedForm : Obligations.RawCountClosedForm :=
  ⟨rawCount_hw_eq_div, fun scale arg _ => rawCount_scaled scale arg⟩

/-- The count of this hardware (R102, R105). -/
theorem pulseCount_hw_eq (c : Counter) (arg : Nat) :
    pulseCount Params.hw c arg = arg / 72 + if c = 2 then 1 else 0 := by
  rw [pulseCount, rawCount_hw_eq_div, correction_hw]

/-- The count of this hardware with its numbers, the correction tested on the advanced counter (R101 to R103). -/
theorem pulseCount_hw_eq_two_divisions (c : Counter) (arg : Nat) :
    pulseCount Params.hw c arg = 200 * arg / 3600 / 4 + if (c.toNat + 1) % 3 = 0 then 1 else 0 := by
  have hzero : nextDcc Params.hw c = 0 ↔ (c.toNat + 1) % 3 = 0 := by
    rw [BitVec.toNat_eq, nextDcc_hw_toNat]
    rfl
  rw [pulseCount_eq_rawCount_add, rawCount_hw]
  simp only [hzero]

/-! ### Small angles -/

/-- Below 7.2 degrees the count is the correction alone (R107). -/
theorem pulseCount_hw_of_lt {deg : Nat} (c : Counter) (h : deg < 72) :
    pulseCount Params.hw c deg = if c = 2 then 1 else 0 := by
  rw [pulseCount_hw_eq, Nat.div_eq_of_lt h, Nat.zero_add]

/-- A `SETPOS` of known count, when the terminals it needs are configured (R150). -/
theorem exec_setpos_idle {s : State} {dir : Dir} {deg n : Nat} (hq : s.seq = .idle)
    (hn : pulseCount Params.hw s.dcc deg = n) (ho : n ≠ 0 → s.oe = allTerminals) :
    exec (.setpos dir deg) s = .next { s with dcc := nextDcc Params.hw s.dcc, seq := driveStart dir n } := by
  subst hn
  exact exec_idle hq fun h => ho (of_decide_eq_true h)

/-- A `QUANT` of known count (R100). -/
theorem exec_quant_idle {s : State} {deg n : Nat} (hq : s.seq = .idle) (hn : pulseCount Params.hw s.dcc deg = n) :
    exec (.quant deg) s =
      .next { s with dcc := nextDcc Params.hw s.dcc, seq := .respond false (BitVec.ofNat 16 n) } := by
  subst hn
  exact exec_idle hq (by simp [needsTerminals])

/-- Settles O27: either call advances the counter, with the correction as its count. -/
theorem smallAnglesAdvanceTheCounter : Obligations.SmallAnglesAdvanceTheCounter := by
  intro s dir deg hq hdeg
  have hcount := pulseCount_hw_of_lt s.dcc hdeg
  refine ⟨?_, ?_, fun hc ho => ?_, fun hc => ?_⟩
  · rw [rawCount_hw_eq_div, Nat.div_eq_of_lt hdeg]
  · have hvalue : BitVec.ofNat 16 (if s.dcc = 2 then 1 else 0) = if s.dcc = 2 then 1 else 0 := by
      split_ifs <;> rfl
    rw [exec_quant_idle hq hcount, hvalue]
    rfl
  · rw [exec_setpos_idle hq (hcount.trans (if_pos hc)) fun _ => ho, (nextDcc_hw_eq_zero_iff s.dcc).mpr hc]
    rfl
  · rw [exec_setpos_idle hq (hcount.trans (if_neg hc)) (absurd rfl)]
    rfl

/-! ### Three calls -/

/-- Three advances bring the counter back, and one of the three calls is a correction (R109 (a), (b)). -/
theorem three_advances_restore {c : Counter} (hc : c ≠ 3) :
    nextDcc Params.hw (nextDcc Params.hw (nextDcc Params.hw c)) = c ∧
      correction Params.hw c + correction Params.hw (nextDcc Params.hw c) +
        correction Params.hw (nextDcc Params.hw (nextDcc Params.hw c)) = 1 := by
  revert c
  decide

/-- Settles O28: the raw counts are the three floors, and the corrections sum to 1. -/
theorem threeCallsOneCorrection : Obligations.ThreeCallsOneCorrection := by
  intro c a1 a2 a3 hc
  obtain ⟨hback, hone⟩ := three_advances_restore hc
  refine ⟨hback, ?_⟩
  simp only [pulseCount, rawCount_hw_eq_div]
  omega

end Sys2Proof.Machine
end

section
/-! PROOFS. A step as one equation: the refusal it meets, if any, and the state it leads to, both as functions of the fields
they depend on. A running command records its next event and moves on in `SEQ` (R26, R57); an idle block takes the host's
next move (R80). -/

namespace Sys2Proof.Machine

/-! ### The next event of a running command -/

/-- The event a running command records in its next micro-step, and where `SEQ` goes (R26, R81, R121, R126, R129). -/
def micro (p : Params) : Seq → Option (Event × Seq)
  | .idle => none
  | .initRun k =>
    if h : k.val < 4 then some (.config (Terminal.ofIdx ⟨k.val, h⟩), .initRun (k + 1))
    else
      some (.write (Terminal.ofIdx ⟨k.val - 4, by omega⟩) (p.restLevel (Terminal.ofIdx ⟨k.val - 4, by omega⟩)),
        if k.val < 7 then .initRun (k + 1) else .respond false 1)
  | .finiRun k => some (.write (Terminal.ofIdx k) false, if k.val < 3 then .finiRun (k + 1) else .respond false 0)
  | .stepRun dir rem pos .energize => some (.write ((p.order dir).get pos) true, .stepRun dir rem pos .dwell)
  | .stepRun dir rem pos .dwell => some (.dwell, .stepRun dir rem pos .deenergize)
  | .stepRun dir rem pos .deenergize => some (.write ((p.order dir).get pos) false, afterPulse dir rem pos)
  | .respond err value => some (.rsp err value, .idle)

/-- Only an idle block has no next event. -/
theorem micro_eq_none_iff {p : Params} {q : Seq} : micro p q = none ↔ q = .idle := by
  cases q with
  | idle | finiRun | respond => simp [micro]
  | initRun k => by_cases hk : k.val < 4 <;> simp [micro, hk]
  | stepRun dir rem pos ph => cases ph <;> simp [micro]

/-- A running command has a next event. -/
theorem exists_micro (p : Params) {q : Seq} (hq : q ≠ .idle) : ∃ e q', micro p q = some (e, q') := by
  obtain ⟨⟨e, q'⟩, h⟩ := Option.ne_none_iff_exists'.mp (mt micro_eq_none_iff.mp hq)
  exact ⟨e, q', h⟩

/-- Only the first half of `INIT` configures (R126). -/
theorem micro_config {p : Params} {q q' : Seq} {u : Terminal} (h : micro p q = some (.config u, q')) :
    ∃ k : Fin 8, q = .initRun k ∧ k.val < 4 := by
  cases q with
  | initRun k =>
    refine ⟨k, rfl, ?_⟩
    by_contra hk
    simp [micro, hk] at h
  | stepRun dir rem pos ph => cases ph <;> simp [micro] at h
  | idle | finiRun | respond => simp [micro] at h

/-! ### What an event does -/

/-- The levels after an event (R52). -/
def Event.coilAfter (c : Pattern) : Event → Pattern
  | .write t v => patternWith c t v
  | .config _ => c
  | .dwell => c
  | .rsp _ _ => c

/-- The output enables after an event (R51). -/
def Event.oeAfter (oe : Pattern) : Event → Pattern
  | .config t => patternWith oe t true
  | .write _ _ => oe
  | .dwell => oe
  | .rsp _ _ => oe

/-- Why an event cannot occur: a write needs its terminal configured (R52, U1). -/
def Event.refusal (oe : Pattern) : Event → Option Refusal
  | .write t _ => if patternBit oe t = true then none else some (.unconfiguredWrite t)
  | .config _ => none
  | .dwell => none
  | .rsp _ _ => none

/-- The state after an event, with `SEQ` at `q`. -/
def State.record (e : Event) (q : Seq) (s : State) : State :=
  { s with seq := q, coil := e.coilAfter s.coil, oe := e.oeAfter s.oe, emitted := e :: s.emitted }

/-- An outcome from the refusal met, if any, and the state reached otherwise. -/
def outcomeOf (refusal : Option Refusal) (t : State) : Result :=
  match refusal with
  | none => .next t
  | some r => .refused r

theorem outcomeOf_eq_next {o : Option Refusal} {t t' : State} (h : outcomeOf o t = .next t') : o = none ∧ t' = t := by
  cases o with
  | none =>
    injection h with h
    exact ⟨rfl, h.symm⟩
  | some r => cases h

theorem outcomeOf_eq_refused_iff {o : Option Refusal} {t : State} {r : Refusal} :
    outcomeOf o t = .refused r ↔ o = some r := by
  cases o <;> simp [outcomeOf]

theorem outcomeOf_ne_fault {o : Option Refusal} {t : State} (f : Fault) : outcomeOf o t ≠ .fault f := by
  cases f

theorem mapNext_outcomeOf (f : State → State) (o : Option Refusal) (t : State) :
    mapNext f (outcomeOf o t) = outcomeOf o (f t) := by
  cases o <;> rfl

/-- A terminal write is its event (R52). -/
theorem termWrite_eq_outcomeOf (t : Terminal) (v : Bool) (q : Seq) (s : State) :
    termWrite t v { s with seq := q } = outcomeOf ((Event.write t v).refusal s.oe) (s.record (.write t v) q) := by
  cases h : patternBit s.oe t with
  | true =>
    rw [Event.refusal, if_pos h]
    exact termWrite_configured v h
  | false =>
    rw [Event.refusal, h]
    exact termWrite_unconfigured v h

/-- A micro-step of a running command performs its next event (R26). -/
theorem runStep_of_micro {p : Params} {meaning : Instr → State → Result} {s : State} {e : Event} {q : Seq}
    (h : micro p s.seq = some (e, q)) : runStep p meaning s = outcomeOf (e.refusal s.oe) (s.record e q) := by
  unfold runStep
  cases hq : s.seq with
  | idle =>
    rw [hq] at h
    cases h
  | initRun k =>
    simp only [hq, micro] at h
    simp only [initMicroStep]
    split_ifs at h ⊢ with hk
    all_goals
      injection h with h
      injection h with he hq'
      subst he hq'
    · rfl
    · exact termWrite_eq_outcomeOf _ _ _ s
    · exact termWrite_eq_outcomeOf _ _ _ s
  | finiRun k =>
    rw [hq] at h
    injection h with h
    injection h with he hq'
    subst he hq'
    exact termWrite_eq_outcomeOf _ _ _ s
  | stepRun dir rem pos ph =>
    rw [hq] at h
    cases ph
    all_goals
      injection h with h
      injection h with he hq'
      subst he hq'
    · exact termWrite_eq_outcomeOf _ _ _ s
    · rfl
    · exact termWrite_eq_outcomeOf _ _ _ s
  | respond err value =>
    rw [hq] at h
    injection h with h
    injection h with he hq'
    subst he hq'
    rfl

/-! ### The host's next move -/

/-- `SEQ` after an idle step, from the counter and the host's moves (R80). -/
def idleSeq (p : Params) (c : Counter) : List HostMove → Seq
  | .present w :: _ =>
    match decode w with
    | .ok i => startSeq p c i
    | .error _ => .respond true 0
  | .pause :: _ => .idle
  | [] => .idle

/-- `DCC` after an idle step (R21, R80). -/
def idleDcc (p : Params) (c : Counter) : List HostMove → Counter
  | .present w :: _ =>
    match decode w with
    | .ok i => commandDcc p c i
    | .error _ => c
  | .pause :: _ => c
  | [] => c

/-- Whether an idle step is refused: the word is of a command whose terminals are not configured (U1). -/
def idleRefusal (p : Params) (c : Counter) (oe : Pattern) : List HostMove → Option Refusal
  | .present w :: _ =>
    match decode w with
    | .ok i => if needsTerminals p c i = true ∧ oe ≠ allTerminals then some .terminalsNotConfigured else none
    | .error _ => none
  | .pause :: _ => none
  | [] => none

/-- The state after an idle step. -/
def State.takeMove (p : Params) (s : State) : State :=
  { s with dcc := idleDcc p s.dcc s.cmd, seq := idleSeq p s.dcc s.cmd, cmd := s.cmd.tail }

/-- The acceptance of a command by an idle block as one equation (R80, U1). -/
theorem acceptInstr_eq_outcomeOf {p : Params} {i : Instr} {s : State} (hq : s.seq = .idle) :
    acceptInstr p i s =
      outcomeOf (if needsTerminals p s.dcc i = true ∧ s.oe ≠ allTerminals then some .terminalsNotConfigured else none)
        { s with dcc := commandDcc p s.dcc i, seq := startSeq p s.dcc i } := by
  split_ifs with h
  · exact acceptInstr_unconfigured hq h.1 h.2
  · exact acceptInstr_idle hq fun hn => by_contra fun ho => h ⟨hn, ho⟩

/-- An idle step takes the host's next move (R80). -/
theorem idleStep_eq_outcomeOf (p : Params) {s : State} (hq : s.seq = .idle) :
    idleStep (acceptInstr p) s = outcomeOf (idleRefusal p s.dcc s.oe s.cmd) (s.takeMove p) := by
  cases s with
  | mk dcc coil oe seq cmd rst emitted =>
    subst hq
    match cmd with
    | [] => rfl
    | .pause :: moves => rfl
    | .present w :: moves =>
      cases hd : decode w with
      | ok i =>
        simp only [idleStep, acceptWord, idleRefusal, State.takeMove, idleDcc, idleSeq, hd]
        exact acceptInstr_eq_outcomeOf rfl
      | error e => simp [idleStep, acceptWord, idleRefusal, State.takeMove, idleDcc, idleSeq, hd, outcomeOf,
          raiseIllegalCommand, respond]

/-! ### A step -/

/-- The refusal a step meets, if any. -/
def stepRefusal (p : Params) (s : State) : Option Refusal :=
  if s.rstHigh = true then none
  else
    match micro p s.seq with
    | none => idleRefusal p s.dcc s.oe s.cmd
    | some (e, _) => e.refusal s.oe

/-- The state a step leads to when it is not refused. -/
def stepTarget (p : Params) (s : State) : State :=
  if s.rstHigh = true then forceReset p s.tick
  else
    match micro p s.seq with
    | none => s.tick.takeMove p
    | some (e, q) => s.tick.record e q

/-- A step as one equation. -/
theorem stepWith_eq_outcomeOf (p : Params) (s : State) : stepWith p s = outcomeOf (stepRefusal p s) (stepTarget p s) := by
  unfold stepWith cycle stepRefusal stepTarget
  by_cases hr : s.rstHigh = true
  · simp only [hr, if_true]
    rfl
  · simp only [hr]
    cases hm : micro p s.seq with
    | none =>
      have hq : s.tick.seq = .idle := micro_eq_none_iff.mp hm
      rw [runStep, hq]
      exact idleStep_eq_outcomeOf p hq
    | some next => exact runStep_of_micro hm

/-- A step of this hardware as one equation. -/
theorem step_eq_outcomeOf (s : State) : step s = outcomeOf (stepRefusal Params.hw s) (stepTarget Params.hw s) := by
  rw [step_eq_stepWith, stepWith_eq_outcomeOf]

/-- The next state of a step. -/
theorem step_eq_next {s t : State} (h : step s = .next t) :
    stepRefusal Params.hw s = none ∧ t = stepTarget Params.hw s :=
  outcomeOf_eq_next ((step_eq_outcomeOf s).symm.trans h)

/-- With `rst` low an idle step takes the host's next move. -/
theorem stepTarget_idle {p : Params} {s : State} (hr : s.rstHigh = false) (hq : s.seq = .idle) :
    stepTarget p s = s.tick.takeMove p := by
  simp [stepTarget, hr, hq, micro]

/-- With `rst` low a running command performs its next event. -/
theorem stepTarget_running {p : Params} {s : State} {e : Event} {q : Seq} (hr : s.rstHigh = false)
    (hm : micro p s.seq = some (e, q)) : stepTarget p s = s.tick.record e q := by
  simp [stepTarget, hr, hm]

/-- With `rst` low an idle step is refused for the host's next move. -/
theorem stepRefusal_idle {p : Params} {s : State} (hr : s.rstHigh = false) (hq : s.seq = .idle) :
    stepRefusal p s = idleRefusal p s.dcc s.oe s.cmd := by
  simp [stepRefusal, hr, hq, micro]

/-- With `rst` low a running command is refused for its next event. -/
theorem stepRefusal_running {p : Params} {s : State} {e : Event} {q : Seq} (hr : s.rstHigh = false)
    (hm : micro p s.seq = some (e, q)) : stepRefusal p s = e.refusal s.oe := by
  simp [stepRefusal, hr, hm]

end Sys2Proof.Machine
end

section
/-! PROOFS. What a step depends on and what it changes, from the equation of a step: O13 to O19. Then O49, the one refusal of a
state that meets the invariant, and O50, the steps left of a running command. -/

namespace Sys2Proof.Machine

/-! ### What a step depends on -/

/-- Two states with the same `rst` and `SEQ` lead to states that agree under `f` and `g` when a reset, the host's next move and
every event do. -/
theorem stepTarget_agree {f g : State → State} {p : Params} {s s' : State} (hr : s'.rstHigh = s.rstHigh)
    (hq : s'.seq = s.seq) (hreset : f (forceReset p s'.tick) = g (forceReset p s.tick))
    (hidle : s.seq = .idle → f (s'.tick.takeMove p) = g (s.tick.takeMove p))
    (hrun : ∀ e q, f (s'.tick.record e q) = g (s.tick.record e q)) : f (stepTarget p s') = g (stepTarget p s) := by
  unfold stepTarget
  rw [hr, hq]
  by_cases hhigh : s.rstHigh = true
  · rw [if_pos hhigh, if_pos hhigh]
    exact hreset
  · rw [if_neg hhigh, if_neg hhigh]
    cases hm : micro p s.seq with
    | none => exact hidle (micro_eq_none_iff.mp hm)
    | some next => exact hrun next.1 next.2

/-- A running command is refused or not whatever the host presents (R186). -/
theorem stepRefusal_of_busy {p : Params} {s : State} (hq : s.seq ≠ .idle) (moves : List HostMove) :
    stepRefusal p { s with cmd := moves } = stepRefusal p s := by
  obtain ⟨e, q, hm⟩ := exists_micro p hq
  simp only [stepRefusal, hm]
  rfl

/-- A step of a running command takes no move of the host (R186). -/
theorem stepTarget_cmd_of_busy {p : Params} {s : State} (hq : s.seq ≠ .idle) : (stepTarget p s).cmd = s.cmd := by
  obtain ⟨e, q, hm⟩ := exists_micro p hq
  simp only [stepTarget, hm]
  split_ifs <;> rfl

/-- Settles O13: a reset and an event neither read nor change the host's moves. -/
theorem busyBlockIgnoresTheHost : Obligations.BusyBlockIgnoresTheHost := by
  intro s hq
  refine ⟨⟨by simp [State.busy, hq], by simp [State.cmdReady, hq]⟩, fun t h => ?_, fun moves => ?_⟩
  · rw [(step_eq_next h).2, stepTarget_cmd_of_busy hq]
  · have htarget : id (stepTarget Params.hw { s with cmd := moves }) =
        { stepTarget Params.hw s with cmd := moves } :=
      stepTarget_agree (g := fun t => { t with cmd := moves }) rfl rfl rfl (fun h => absurd h hq) fun _ _ => rfl
    rw [step_eq_outcomeOf, step_eq_outcomeOf s, mapNext_outcomeOf, stepRefusal_of_busy hq]
    exact congrArg _ htarget

/-- Settles O17: whether a step is refused does not depend on `COIL`, and no part of the state it leads to but `COIL`
does. -/
theorem nothingReadsTheLevels : Obligations.NothingReadsTheLevels := by
  intro s levels
  rw [step_eq_outcomeOf, step_eq_outcomeOf s, mapNext_outcomeOf, mapNext_outcomeOf]
  exact congrArg (outcomeOf (stepRefusal Params.hw s))
    (stepTarget_agree (f := fun t => { t with coil := 0 }) (g := fun t => { t with coil := 0 }) rfl rfl rfl
      (fun _ => rfl) fun _ _ => rfl)

/-- Settles O18: no part of the state a step leads to but `OE` depends on `OE`. -/
theorem outputEnablesOnlyGate : Obligations.OutputEnablesOnlyGate := by
  intro s t t' enables h h'
  obtain ⟨-, rfl⟩ := step_eq_next h
  obtain ⟨-, rfl⟩ := step_eq_next h'
  exact stepTarget_agree (f := fun t => { t with oe := 0 }) (g := fun t => { t with oe := 0 }) rfl rfl rfl
    (fun _ => rfl) fun _ _ => rfl

/-- Settles O19: a step only adds to the front of the record. -/
theorem recordIsNotRead : Obligations.RecordIsNotRead := by
  intro s past
  rw [step_eq_outcomeOf, step_eq_outcomeOf s, mapNext_outcomeOf]
  exact congrArg (outcomeOf (stepRefusal Params.hw s))
    (stepTarget_agree (f := id) (g := fun t => { t with emitted := t.emitted ++ past }) rfl rfl rfl
      (fun _ => rfl) fun _ _ => rfl)

/-! ### What a step changes -/

/-- With `rst` low a step takes the host's next move or records the next event, which is not refused. -/
theorem step_low_cases {s t : State} (hr : s.rstHigh = false) (h : step s = .next t) :
    (s.seq = .idle ∧ t = s.tick.takeMove Params.hw) ∨
      ∃ e q, micro Params.hw s.seq = some (e, q) ∧ e.refusal s.oe = none ∧ t = s.tick.record e q := by
  obtain ⟨hnone, rfl⟩ := step_eq_next h
  by_cases hq : s.seq = .idle
  · exact .inl ⟨hq, stepTarget_idle hr hq⟩
  · obtain ⟨e, q, hm⟩ := exists_micro Params.hw hq
    exact .inr ⟨e, q, hm, (stepRefusal_running hr hm).symm.trans hnone, stepTarget_running hr hm⟩

/-- A write that is not refused is of a configured terminal (R52). -/
theorem refusal_write_eq_none_iff {oe : Pattern} {u : Terminal} {v : Bool} :
    (Event.write u v).refusal oe = none ↔ patternBit oe u = true := by
  simp [Event.refusal]

/-- An idle step leaves the block idle exactly when no word is presented (R26, R80). -/
theorem takeMove_seq_idle_iff (s : State) : (s.takeMove Params.hw).seq = .idle ↔ s.cmdValid = false := by
  unfold State.takeMove State.cmdValid idleSeq
  match s.cmd with
  | [] => simp
  | .pause :: moves => simp
  | .present w :: moves => cases hd : decode w <;> simp [hd, startSeq_ne_idle]

/-- With no word presented an idle step keeps the counter. -/
theorem takeMove_dcc_of_no_word {s : State} (h : s.cmdValid = false) : (s.takeMove Params.hw).dcc = s.dcc := by
  unfold State.cmdValid at h
  unfold State.takeMove idleDcc
  match hc : s.cmd with
  | [] => simp
  | .pause :: moves => simp
  | .present w :: moves => simp [hc] at h

/-- Settles O14: no event in an idle step, and otherwise what the one event does. -/
theorem oneEventPerStep : Obligations.OneEventPerStep := by
  intro s t hr h
  obtain ⟨hq, rfl⟩ | ⟨e, q, -, hallowed, rfl⟩ := step_low_cases hr h
  · exact .inl ⟨rfl, rfl, rfl, hq, takeMove_seq_idle_iff s.tick, takeMove_dcc_of_no_word⟩
  · cases e with
    | config u =>
      refine .inr (.inl ⟨u, rfl, rfl, ?_, fun u' hu => ?_, rfl⟩)
      all_goals simp_all [State.record, Event.oeAfter]
    | write u v =>
      refine .inr (.inr (.inl ⟨u, v, rfl, rfl, refusal_write_eq_none_iff.mp hallowed, ?_, fun u' hu => ?_, rfl⟩))
      all_goals simp_all [State.record, Event.coilAfter]
    | dwell => exact .inr (.inr (.inr (.inl ⟨rfl, rfl, rfl, rfl⟩)))
    | rsp err value => exact .inr (.inr (.inr (.inr ⟨err, value, rfl, rfl, rfl, rfl⟩)))

/-- An idle step advances the counter exactly when it accepts a conversion call (R21). -/
theorem takeMove_dcc {s : State} (hq : s.seq = .idle) :
    (s.takeMove Params.hw).dcc = if s.acceptsConversion then nextDcc Params.hw s.dcc else s.dcc := by
  unfold State.takeMove State.acceptsConversion idleDcc
  match s.cmd with
  | [] => simp [hq]
  | .pause :: moves => simp [hq]
  | .present w :: moves => cases hd : decode w <;> simp [hq, hd, commandDcc]

/-- A running command accepts nothing. -/
theorem acceptsConversion_of_busy {s : State} (hq : s.seq ≠ .idle) : s.acceptsConversion = false := by
  unfold State.acceptsConversion
  split
  · exact absurd ‹_› hq
  · rfl

/-- Settles O15: an event keeps the counter. -/
theorem onlyConversionCallsAdvanceDcc : Obligations.OnlyConversionCallsAdvanceDcc := by
  intro s t hr h
  obtain ⟨hq, rfl⟩ | ⟨e, q, hm, -, rfl⟩ := step_low_cases hr h
  · exact takeMove_dcc (s := s.tick) hq
  · have hq : s.seq ≠ .idle := by simp [← micro_eq_none_iff (p := Params.hw), hm]
    rw [acceptsConversion_of_busy hq]
    rfl

/-- An event clears no bit of `OE` (R51). -/
theorem patternBit_oeAfter {oe : Pattern} {u : Terminal} (e : Event) (h : patternBit oe u = true) :
    patternBit (e.oeAfter oe) u = true := by
  cases e <;> simp [Event.oeAfter, h]

/-- Settles O16: only a configuration changes `OE`, and only the first half of `INIT` configures. -/
theorem onlyInitSetsOutputEnables : Obligations.OnlyInitSetsOutputEnables := by
  intro s t hr h
  obtain ⟨hq, rfl⟩ | ⟨e, q, hm, -, rfl⟩ := step_low_cases hr h
  · exact ⟨fun _ hu => hu, fun hne => absurd rfl hne⟩
  · refine ⟨fun u hu => patternBit_oeAfter e hu, fun hne => ?_⟩
    cases e with
    | config u => exact micro_config hm
    | write | dwell | rsp => exact absurd rfl hne

/-! ### States that meet the invariant -/

/-- In a state that meets the invariant a write comes next only with all terminals configured (R34 (b)). -/
theorem State.Inv.oe_of_micro_write {s : State} (hs : s.Inv) {u : Terminal} {v : Bool} {q : Seq}
    (hm : micro Params.hw s.seq = some (.write u v, q)) : s.oe = allTerminals := by
  cases hq : s.seq with
  | initRun k =>
    obtain ⟨-, hall | ⟨hk, -⟩⟩ := (inv_iff_of_initRun hq).mp hs
    · exact hall
    · simp [hq, micro, hk] at hm
  | finiRun k => exact absurd hs (not_inv_of_finiRun hq)
  | stepRun dir rem pos ph =>
    obtain ⟨-, hall, -⟩ := (inv_iff_of_stepRun hq).mp hs
    exact hall
  | idle | respond => simp [hq, micro] at hm

/-- In a state that meets the invariant no event of a running command is refused (R52). -/
theorem State.Inv.refusal_eq_none {s : State} (hs : s.Inv) {e : Event} {q : Seq}
    (hm : micro Params.hw s.seq = some (e, q)) : e.refusal s.oe = none := by
  cases e with
  | write u v => rw [hs.oe_of_micro_write hm, refusal_write_eq_none_iff, patternBit_allTerminals]
  | config | dwell | rsp => rfl

/-- When the host's next move is refused (U1). -/
theorem idleRefusal_eq_some_iff {p : Params} {c : Counter} {oe : Pattern} {cmd : List HostMove} {r : Refusal} :
    idleRefusal p c oe cmd = some r ↔
      r = .terminalsNotConfigured ∧ oe ≠ allTerminals ∧
        ∃ w moves i, cmd = .present w :: moves ∧ decode w = .ok i ∧ needsTerminals p c i = true := by
  unfold idleRefusal
  match cmd with
  | [] => simp
  | .pause :: moves => simp
  | .present w :: moves =>
    cases hd : decode w with
    | error e => simp [hd]
    | ok i =>
      simp [hd]
      tauto

/-- Settles O49: a reset is never refused, by the invariant no event is, and an idle step is for U1 alone. -/
theorem onlyAnEarlyTerminalWriteIsRefused : Obligations.OnlyAnEarlyTerminalWriteIsRefused := by
  intro s hs
  rw [step_eq_outcomeOf]
  refine ⟨outcomeOf_ne_fault, fun r => ?_⟩
  rw [outcomeOf_eq_refused_iff]
  cases hr : s.rstHigh with
  | true => simp [stepRefusal, hr]
  | false =>
    by_cases hq : s.seq = .idle
    · rw [stepRefusal_idle hr hq, idleRefusal_eq_some_iff]
      simp only [hq, true_and]
      rfl
    · obtain ⟨e, q, hm⟩ := exists_micro Params.hw hq
      rw [stepRefusal_running hr hm, hs.refusal_eq_none hm]
      simp [hq]

/-! ### The steps left -/

/-- No step is left exactly of an idle block (R193). -/
theorem remaining_eq_zero_iff (s : State) : s.remaining = 0 ↔ s.seq = .idle := by
  unfold State.remaining
  match hq : s.seq with
  | .idle | .respond _ _ => simp
  | .initRun k | .finiRun k => simp; omega
  | .stepRun _ _ pos .energize | .stepRun _ _ pos .dwell | .stepRun _ _ pos .deenergize => simp; omega

/-- After the de-energizing write the steps left are one fewer (R121, R193). -/
theorem remaining_afterPulse {s t : State} {dir : Dir} {rem : Nat} {pos : Fin 4}
    (hq : s.seq = .stepRun dir rem pos .deenergize) (ht : t.seq = afterPulse dir rem pos) :
    t.remaining + 1 = s.remaining := by
  unfold afterPulse at ht
  split_ifs at ht with hpos hrem
  · have hnext : (pos + 1).val = pos.val + 1 := by omega
    simp only [State.remaining, hq, ht, hnext]
    omega
  · simp only [State.remaining, hq, ht]
    omega
  · simp only [State.remaining, hq, ht]
    omega

/-- Each event leaves one step fewer (R193). -/
theorem remaining_of_micro {p : Params} {s t : State} {e : Event} (hm : micro p s.seq = some (e, t.seq)) :
    t.remaining + 1 = s.remaining := by
  cases hq : s.seq with
  | idle => simp [hq, micro] at hm
  | initRun k =>
    by_cases hlast : k.val < 7
    · have ht : t.seq = .initRun (k + 1) := by
        rw [hq, micro] at hm
        split_ifs at hm <;> simp_all
      have hnext : (k + 1).val = k.val + 1 := by omega
      simp only [State.remaining, hq, ht, hnext]
      omega
    · have ht : t.seq = .respond false 1 := by
        rw [hq, micro] at hm
        split_ifs at hm <;> simp_all
        omega
      simp only [State.remaining, hq, ht]
      omega
  | finiRun k =>
    by_cases hlast : k.val < 3
    · have ht : t.seq = .finiRun (k + 1) := by simp_all [micro]
      have hnext : (k + 1).val = k.val + 1 := by omega
      simp only [State.remaining, hq, ht, hnext]
      omega
    · have ht : t.seq = .respond false 0 := by simp_all [micro]
      simp only [State.remaining, hq, ht]
      omega
  | stepRun dir rem pos ph =>
    cases ph with
    | energize =>
      have ht : t.seq = .stepRun dir rem pos .dwell := by simp_all [micro]
      simp only [State.remaining, hq, ht]
      omega
    | dwell =>
      have ht : t.seq = .stepRun dir rem pos .deenergize := by simp_all [micro]
      simp only [State.remaining, hq, ht]
      omega
    | deenergize => exact remaining_afterPulse hq (by simp_all [micro])
  | respond err value =>
    have ht : t.seq = .idle := by simp_all [micro]
    simp only [State.remaining, hq, ht]

/-- Settles O50: by the invariant the next event occurs, and it leaves one step fewer. -/
theorem runningCommandsCountDown : Obligations.RunningCommandsCountDown := by
  intro s hs hr hq
  obtain ⟨e, q, hm⟩ := exists_micro Params.hw hq
  have hstep : step s = .next (s.tick.record e q) := by
    rw [step_eq_outcomeOf, stepRefusal_running hr hm, stepTarget_running hr hm, hs.refusal_eq_none hm, outcomeOf]
  exact ⟨_, hstep, remaining_of_micro hm, (remaining_eq_zero_iff _).symm⟩

end Sys2Proof.Machine
end

section
/-! PROOFS. Lists of events: the events of a drive, their counts and their mirror image (R121, R124, R131), and the levels and
output enables a list of events leaves (R51, R52). O39 and O41. -/

namespace Sys2Proof.Machine

/-! ### The events of a drive -/

@[simp] theorem driveEvents_zero (p : Params) (dir : Dir) : driveEvents p dir 0 = [] := rfl

/-- A drive is its first sub-step and the rest (R124). -/
theorem driveEvents_succ (p : Params) (dir : Dir) (n : Nat) :
    driveEvents p dir (n + 1) = subStepEvents (p.order dir) ++ driveEvents p dir n := rfl

/-- A drive is all but its last sub-step, and that one (R124). -/
theorem driveEvents_succ' (p : Params) (dir : Dir) (n : Nat) :
    driveEvents p dir (n + 1) = driveEvents p dir n ++ subStepEvents (p.order dir) := by
  simp [driveEvents, List.replicate_succ', List.flatten_append]

/-- A sub-step is twelve events (R121). -/
theorem length_subStepEvents (o : VisitOrder) : (subStepEvents o).length = 12 := rfl

theorem length_driveEvents (p : Params) (dir : Dir) (n : Nat) : (driveEvents p dir n).length = 12 * n := by
  induction n with
  | zero => rfl
  | succ n ih =>
    rw [driveEvents_succ, List.length_append, length_subStepEvents, ih]
    omega

/-- A drive has eight writes a sub-step (R124). -/
theorem countP_isWrite_driveEvents (p : Params) (dir : Dir) (n : Nat) :
    (driveEvents p dir n).countP Event.isWrite = 8 * n := by
  induction n with
  | zero => rfl
  | succ n ih =>
    have hone : (subStepEvents (p.order dir)).countP Event.isWrite = 8 := rfl
    rw [driveEvents_succ, List.countP_append, hone, ih]
    omega

/-- A drive has four dwells a sub-step (R124). -/
theorem count_dwell_driveEvents (p : Params) (dir : Dir) (n : Nat) : (driveEvents p dir n).count .dwell = 4 * n := by
  induction n with
  | zero => rfl
  | succ n ih =>
    have hone : (subStepEvents (p.order dir)).count .dwell = 4 := by simp [subStepEvents, VisitOrder.toList, pulseEvents]
    rw [driveEvents_succ, List.count_append, hone, ih]
    omega

/-- No response stands among the events of a drive. -/
theorem countP_isRsp_driveEvents (p : Params) (dir : Dir) (n : Nat) :
    (driveEvents p dir n).countP Event.isRsp = 0 := by
  induction n with
  | zero => rfl
  | succ n ih =>
    have hone : (subStepEvents (p.order dir)).countP Event.isRsp = 0 := rfl
    rw [driveEvents_succ, List.countP_append, hone, ih]

/-- The nominal duration of a drive (R125). -/
theorem nominalMs_driveEvents (p : Params) (dir : Dir) (n : Nat) :
    nominalMs p (driveEvents p dir n) = 4 * n * p.dwellMs := by
  rw [nominalMs, count_dwell_driveEvents, Nat.mul_comm]

/-- Settles O41: a drive has four dwells a sub-step, and `INIT`, `FINI` and `QUANT` have none. -/
theorem nominalDurations : Obligations.NominalDurations := by
  refine ⟨fun p dir n _ => nominalMs_driveEvents p dir n, fun dir n => ?_, fun c deg => ⟨rfl, rfl, rfl⟩⟩
  have hdwell : Params.hw.dwellMs = 5 := rfl
  rw [nominalMs_driveEvents, hdwell]
  omega

/-! ### The mirror image -/

theorem mirrorEvents_append (first second : List Event) :
    mirrorEvents (first ++ second) = mirrorEvents second ++ mirrorEvents first := by
  simp [mirrorEvents]

theorem mirrorEvents_cons (e : Event) (es : List Event) : mirrorEvents (e :: es) = mirrorEvents es ++ [e.flip] := by
  simp [mirrorEvents]

theorem length_mirrorEvents (es : List Event) : (mirrorEvents es).length = es.length := by
  simp [mirrorEvents]

/-- A sub-step mirrored is the sub-step in the mirror order (R131). -/
theorem mirrorEvents_subStepEvents (o : VisitOrder) : mirrorEvents (subStepEvents o) = subStepEvents o.mirror := rfl

/-- With valid parameters the two orders are each other's mirror (R15). -/
theorem order_mirror_of_valid {p : Params} (h : p.valid = true) {dir dir' : Dir} (hd : dir' ≠ dir) :
    (p.order dir).mirror = p.order dir' := by
  have hccw := Params.order_ccw_of_valid h
  cases dir <;> cases dir'
  · exact absurd rfl hd
  · exact hccw.symm
  · rw [hccw]
    rfl
  · exact absurd rfl hd

/-- The drive in the other direction is the mirror image (R131). -/
theorem mirrorEvents_driveEvents {p : Params} (h : p.valid = true) {dir dir' : Dir} (hd : dir' ≠ dir) (n : Nat) :
    mirrorEvents (driveEvents p dir n) = driveEvents p dir' n := by
  induction n with
  | zero => rfl
  | succ n ih =>
    rw [driveEvents_succ, mirrorEvents_append, ih, mirrorEvents_subStepEvents, order_mirror_of_valid h hd,
      driveEvents_succ']

/-- Settles O39: each drive is the mirror image of the other. -/
theorem driveTracesMirror : Obligations.DriveTracesMirror := fun _ n h =>
  ⟨(mirrorEvents_driveEvents h (by decide) n).symm, (mirrorEvents_driveEvents h (by decide) n).symm⟩

/-! ### What a list of events leaves -/

/-- The levels after a list of events. -/
def levelsAfter (es : List Event) (c : Pattern) : Pattern := es.foldl Event.coilAfter c

/-- The output enables after a list of events. -/
def enablesAfter (es : List Event) (oe : Pattern) : Pattern := es.foldl Event.oeAfter oe

/-- Each event of a list can occur after the ones before it: a write finds its terminal configured (R52). -/
def Allowed : List Event → Pattern → Prop
  | [], _ => True
  | e :: es, oe => e.refusal oe = none ∧ Allowed es (e.oeAfter oe)

@[simp] theorem levelsAfter_nil (c : Pattern) : levelsAfter [] c = c := rfl
@[simp] theorem levelsAfter_cons (e : Event) (es : List Event) (c : Pattern) :
    levelsAfter (e :: es) c = levelsAfter es (e.coilAfter c) := rfl
@[simp] theorem levelsAfter_append (first second : List Event) (c : Pattern) :
    levelsAfter (first ++ second) c = levelsAfter second (levelsAfter first c) := List.foldl_append
@[simp] theorem enablesAfter_nil (oe : Pattern) : enablesAfter [] oe = oe := rfl
@[simp] theorem enablesAfter_cons (e : Event) (es : List Event) (oe : Pattern) :
    enablesAfter (e :: es) oe = enablesAfter es (e.oeAfter oe) := rfl
@[simp] theorem enablesAfter_append (first second : List Event) (oe : Pattern) :
    enablesAfter (first ++ second) oe = enablesAfter second (enablesAfter first oe) := List.foldl_append

/-- With all terminals configured an event leaves them so. -/
@[simp] theorem oeAfter_allTerminals (e : Event) : e.oeAfter allTerminals = allTerminals := by
  cases e <;> simp [Event.oeAfter]

@[simp] theorem enablesAfter_allTerminals (es : List Event) : enablesAfter es allTerminals = allTerminals := by
  induction es with
  | nil => rfl
  | cons e es ih => rw [enablesAfter_cons, oeAfter_allTerminals, ih]

/-- With all terminals configured every event can occur. -/
theorem allowed_of_configured {oe : Pattern} (h : oe = allTerminals) (es : List Event) : Allowed es oe := by
  subst h
  induction es with
  | nil => trivial
  | cons e es ih =>
    refine ⟨?_, ?_⟩
    · cases e <;> simp [Event.refusal]
    · rwa [oeAfter_allTerminals]

/-! ### The levels a drive leaves -/

/-- A pulse leaves its terminal low and the others as they were (R128). -/
theorem levelsAfter_pulseEvents (t : Terminal) (c : Pattern) :
    levelsAfter (pulseEvents t) c = patternWith c t false := by
  refine pattern_ext fun u => ?_
  by_cases hu : u = t <;> simp [pulseEvents, Event.coilAfter, hu]

/-- Pulses leave the visited terminals low and the others as they were. -/
theorem patternBit_levelsAfter_pulses (l : List Terminal) (c : Pattern) (u : Terminal) :
    patternBit (levelsAfter (l.flatMap pulseEvents) c) u = (decide (u ∉ l) && patternBit c u) := by
  induction l generalizing c with
  | nil => simp
  | cons t l ih =>
    rw [List.flatMap_cons, levelsAfter_append, levelsAfter_pulseEvents, ih, patternBit_patternWith]
    by_cases hu : u = t <;> simp [hu]

/-- An order that visits no terminal twice visits all four (R120). -/
theorem mem_toList_of_nodup {o : VisitOrder} (h : o.toList.Nodup) (t : Terminal) : t ∈ o.toList := by
  have hall : ∀ u : Terminal, u ∈ [Terminal.a1, .a2, .b1, .b2] := fun u => by cases u <;> simp
  have hperm : o.toList.Perm [.a1, .a2, .b1, .b2] :=
    (h.subperm fun u _ => hall u).perm_of_length_le (Nat.le_refl 4)
  exact hperm.mem_iff.mpr (hall t)

/-- With valid parameters neither order visits a terminal twice (R120; log entry 6). -/
theorem nodup_order_of_valid {p : Params} (h : p.valid = true) (dir : Dir) : (p.order dir).toList.Nodup := by
  have hcw : (p.order .cw).toList.Nodup := by
    simp only [Params.valid, Bool.and_eq_true, decide_eq_true_eq] at h
    exact h.2
  cases dir with
  | cw => exact hcw
  | ccw =>
    rw [Params.order_ccw_of_valid h]
    exact List.nodup_reverse.mpr hcw

/-- A sub-step leaves all terminals low (R121). -/
theorem levelsAfter_subStepEvents {o : VisitOrder} (h : o.toList.Nodup) (c : Pattern) :
    levelsAfter (subStepEvents o) c = 0 := by
  refine pattern_ext fun u => ?_
  rw [subStepEvents, patternBit_levelsAfter_pulses, patternBit_zero]
  simp [mem_toList_of_nodup h u]

/-- A drive of at least one sub-step leaves all terminals low (R124, R189). -/
theorem levelsAfter_driveEvents {p : Params} (h : p.valid = true) (dir : Dir) {n : Nat} (hn : n ≠ 0) (c : Pattern) :
    levelsAfter (driveEvents p dir n) c = 0 := by
  obtain ⟨m, rfl⟩ := Nat.exists_eq_succ_of_ne_zero hn
  rw [driveEvents_succ', levelsAfter_append, levelsAfter_subStepEvents (nodup_order_of_valid h dir)]

/-! ### Events undone by their mirror image -/

/-- Each event of a list changes the levels in a way its flip undoes: every write exchanges a level. -/
def Undoable : List Event → Pattern → Prop
  | [], _ => True
  | e :: es, c => e.flip.coilAfter (e.coilAfter c) = c ∧ Undoable es (e.coilAfter c)

theorem undoable_append {first second : List Event} {c : Pattern} :
    Undoable (first ++ second) c ↔ Undoable first c ∧ Undoable second (levelsAfter first c) := by
  induction first generalizing c with
  | nil => simp [Undoable]
  | cons e es ih => simp [Undoable, ih, and_assoc]

/-- The mirror image of an undoable list brings the levels back (R131). -/
theorem levelsAfter_mirrorEvents {es : List Event} {c : Pattern} (h : Undoable es c) :
    levelsAfter (mirrorEvents es) (levelsAfter es c) = c := by
  induction es generalizing c with
  | nil => rfl
  | cons e es ih =>
    obtain ⟨hflip, hrest⟩ := h
    rw [mirrorEvents_cons, levelsAfter_append, levelsAfter_cons e es, ih hrest]
    exact hflip

/-- A pulse on a low terminal is undoable. -/
theorem undoable_pulseEvents {t : Terminal} {c : Pattern} (h : patternBit c t = false) :
    Undoable (pulseEvents t) c := by
  refine ⟨pattern_ext fun u => ?_, rfl, pattern_ext fun u => ?_, trivial⟩
  all_goals by_cases hu : u = t <;> simp [Event.flip, Event.coilAfter, hu, h]

/-- From all low terminals pulses leave all low. -/
theorem levelsAfter_pulses_zero (l : List Terminal) : levelsAfter (l.flatMap pulseEvents) 0 = 0 :=
  pattern_ext fun u => by rw [patternBit_levelsAfter_pulses, patternBit_zero, Bool.and_false]

/-- From all low terminals pulses are undoable. -/
theorem undoable_pulses_zero (l : List Terminal) : Undoable (l.flatMap pulseEvents) 0 := by
  induction l with
  | nil => trivial
  | cons t l ih =>
    have hlow : levelsAfter (pulseEvents t) 0 = 0 := by simpa using levelsAfter_pulses_zero [t]
    rw [List.flatMap_cons, undoable_append, hlow]
    exact ⟨undoable_pulseEvents (patternBit_zero t), ih⟩

/-- From all low terminals a drive is undoable and leaves all low (R131). -/
theorem drive_from_low (p : Params) (dir : Dir) (n : Nat) :
    Undoable (driveEvents p dir n) 0 ∧ levelsAfter (driveEvents p dir n) 0 = 0 := by
  induction n with
  | zero => exact ⟨trivial, rfl⟩
  | succ n ih =>
    have hlow : levelsAfter (subStepEvents (p.order dir)) 0 = 0 := levelsAfter_pulses_zero _
    rw [driveEvents_succ, undoable_append, levelsAfter_append, hlow]
    exact ⟨⟨undoable_pulses_zero _, ih.1⟩, ih.2⟩

/-- From all low terminals the levels after some events of a drive are those the opposite drive shows as many events before
its end (R131). -/
theorem levelsAfter_take_drive {p : Params} (h : p.valid = true) {dir dir' : Dir} (hd : dir' ≠ dir) (n j : Nat) :
    levelsAfter ((driveEvents p dir n).take j) 0 = levelsAfter ((driveEvents p dir' n).take (12 * n - j)) 0 := by
  obtain ⟨hundo, hlow⟩ := drive_from_low p dir n
  rw [← List.take_append_drop j (driveEvents p dir n), undoable_append] at hundo
  rw [← List.take_append_drop j (driveEvents p dir n), levelsAfter_append] at hlow
  have hopposite : (driveEvents p dir' n).take (12 * n - j) = mirrorEvents ((driveEvents p dir n).drop j) := by
    rw [← mirrorEvents_driveEvents h hd n]
    conv_lhs => rw [← List.take_append_drop j (driveEvents p dir n), mirrorEvents_append]
    exact List.take_left' (by rw [length_mirrorEvents, List.length_drop, length_driveEvents])
  have hback := levelsAfter_mirrorEvents hundo.2
  rw [hlow] at hback
  rw [hopposite, hback]

end Sys2Proof.Machine
end

section
/-! PROOFS. Runs of a command. The micro-steps from one value of `SEQ` to another record a list of events, and a run over them
leaves what the events leave (`runWith_path`); the path of each command records the events of its command-level view. O45,
and from it the runs of each command: O23, O31 to O38, O40 and O42. -/

namespace Sys2Proof.Machine

/-! ### Paths of the sequencer -/

/-- The micro-steps from one value of `SEQ` to another record a list of events. -/
inductive Path (p : Params) : Seq → List Event → Seq → Prop
  | nil (q : Seq) : Path p q [] q
  | cons {q q' q'' : Seq} {e : Event} {es : List Event} (head : micro p q = some (e, q')) (tail : Path p q' es q'') :
      Path p q (e :: es) q''

theorem Path.append {p : Params} {q q' q'' : Seq} {first second : List Event} (h : Path p q first q')
    (h' : Path p q' second q'') : Path p q (first ++ second) q'' := by
  induction h with
  | nil => exact h'
  | cons head _ ih => exact .cons head (ih h')

/-- The first events of a path are a path. -/
theorem Path.take {p : Params} {q q' : Seq} {es : List Event} (h : Path p q es q') (j : Nat) :
    ∃ q'', Path p q (es.take j) q'' := by
  induction h generalizing j with
  | nil q => exact ⟨q, by simpa using Path.nil q⟩
  | cons head _ ih =>
    cases j with
    | zero => exact ⟨_, .nil _⟩
    | succ j =>
      obtain ⟨q'', htail⟩ := ih j
      exact ⟨q'', .cons head htail⟩

/-- The state after a list of events, one a step, with `SEQ` at `q`. -/
def State.afterEvents (es : List Event) (q : Seq) (s : State) : State :=
  State.later es.length
    (State.emitAll es { s with seq := q, coil := levelsAfter es s.coil, oe := enablesAfter es s.oe })

/-- The first event of a list happens in the first step. -/
theorem afterEvents_cons (e : Event) (es : List Event) (q q' : Seq) (s : State) :
    (s.tick.record e q').afterEvents es q = s.afterEvents (e :: es) q := by
  simp [State.afterEvents, State.record, State.later, State.emitAll, State.tick]

/-- A step of a running command whose next event can occur. -/
theorem stepWith_micro {p : Params} {s : State} {e : Event} {q : Seq} (hr : s.rstHigh = false)
    (hm : micro p s.seq = some (e, q)) (ha : e.refusal s.oe = none) : stepWith p s = .next (s.tick.record e q) := by
  rw [stepWith_eq_outcomeOf, stepRefusal_running hr hm, stepTarget_running hr hm, ha, outcomeOf]

/-- A run over the events of a path leaves what the events leave. -/
theorem runWith_path {p : Params} {s : State} {es : List Event} {q : Seq} (h : Path p s.seq es q)
    (ha : Allowed es s.oe) (hr : s.RstLow es.length) : runWith p es.length s = .next (s.afterEvents es q) := by
  generalize hq : s.seq = q₀ at h
  induction h generalizing s with
  | nil q =>
    subst hq
    rfl
  | @cons q q' q'' e es head _ ih =>
    subst hq
    obtain ⟨hnow, hlater⟩ := ha
    have hrest := ih (s := s.tick.record e q') hlater (hr.next rfl) rfl
    rw [List.length_cons, runWith_succ _ (stepWith_micro hr.now head hnow), hrest, afterEvents_cons]

/-! ### The paths of the commands -/

theorem path_pulse (p : Params) (dir : Dir) (rem : Nat) (pos : Fin 4) :
    Path p (.stepRun dir rem pos .energize) (pulseEvents ((p.order dir).get pos)) (afterPulse dir rem pos) :=
  .cons rfl (.cons rfl (.cons rfl (.nil _)))

theorem path_subStep (p : Params) (dir : Dir) (rem : Nat) :
    Path p (.stepRun dir rem 0 .energize) (subStepEvents (p.order dir)) (afterPulse dir rem 3) :=
  (path_pulse p dir rem 0).append ((path_pulse p dir rem 1).append ((path_pulse p dir rem 2).append
    (path_pulse p dir rem 3)))

theorem path_drive (p : Params) (dir : Dir) (n : Nat) :
    Path p (driveStart dir n) (driveEvents p dir n) (.respond false 0) := by
  induction n with
  | zero => exact .nil _
  | succ n ih =>
    have hnext : afterPulse dir (n + 1) 3 = driveStart dir n := by
      cases n <;> simp [afterPulse, driveStart]
    exact (hnext ▸ path_subStep p dir (n + 1)).append ih

theorem path_init (p : Params) : Path p (.initRun 0) (initEvents p) (.respond false 1) :=
  .cons rfl (.cons rfl (.cons rfl (.cons rfl (.cons rfl (.cons rfl (.cons rfl (.cons rfl (.nil _))))))))

theorem path_fini (p : Params) :
    Path p (if p.finiDeenergize then .finiRun 0 else .respond false 0) (finiEvents p) (.respond false 0) := by
  unfold finiEvents
  split_ifs
  · exact .cons rfl (.cons rfl (.cons rfl (.cons rfl (.nil _))))
  · exact .nil _

/-- The micro-steps of a command record the events of its command-level view. -/
theorem path_command (p : Params) (c : Counter) (i : Instr) :
    Path p (startSeq p c i) (commandEvents p c i) (.respond false (commandValue p c i)) := by
  cases i with
  | init => exact path_init p
  | fini => exact path_fini p
  | quant deg => exact .nil _
  | setpos | drive | stepcw | stepccw => exact path_drive p _ _

/-- The response is the last event of a command. -/
def answered (p : Params) (c : Counter) (i : Instr) : List Event :=
  commandEvents p c i ++ [.rsp false (commandValue p c i)]

theorem length_answered (p : Params) (c : Counter) (i : Instr) : (answered p c i).length = commandSteps p c i :=
  List.length_append

theorem path_answered (p : Params) (c : Counter) (i : Instr) : Path p (startSeq p c i) (answered p c i) .idle :=
  (path_command p c i).append (.cons rfl (.nil _))

/-! ### What the events of a command leave -/

/-- A command other than `INIT` that needs no terminal has no event but its response. -/
theorem commandEvents_eq_nil {p : Params} {c : Counter} {i : Instr} (hi : i ≠ .init)
    (hn : needsTerminals p c i = false) : commandEvents p c i = [] := by
  cases i with
  | init => exact absurd rfl hi
  | fini => simpa [commandEvents, finiEvents, needsTerminals] using hn
  | quant deg => rfl
  | setpos dir deg =>
    have hzero : subSteps p c (.setpos dir deg) = 0 := by simpa [needsTerminals] using hn
    simp [commandEvents, hzero]
  | drive dir n =>
    have hzero : n = 0 := by simpa [needsTerminals] using hn
    simp [commandEvents, hzero]
  | stepcw | stepccw => cases hn

/-- The writes of `INIT` find every terminal configured (R126). -/
theorem allowed_initEvents (p : Params) (oe : Pattern) : Allowed (initEvents p ++ [.rsp false 1]) oe := by
  simp [initEvents, Allowed, Event.refusal, Event.oeAfter]

/-- No event of a command is refused when the terminals it needs are configured (R182). -/
theorem allowed_answered {p : Params} {c : Counter} {i : Instr} {oe : Pattern}
    (ho : needsTerminals p c i = true → oe = allTerminals) : Allowed (answered p c i) oe := by
  cases hn : needsTerminals p c i with
  | true => exact allowed_of_configured (ho hn) _
  | false =>
    by_cases hi : i = .init
    · subst hi
      exact allowed_initEvents p oe
    · rw [answered, commandEvents_eq_nil hi hn]
      exact ⟨rfl, trivial⟩

/-- `INIT` leaves all terminals configured (R126). -/
theorem enablesAfter_initEvents (p : Params) (oe : Pattern) : enablesAfter (initEvents p) oe = allTerminals :=
  pattern_ext fun u => by cases u <;> simp [initEvents, Event.oeAfter]

/-- The level `INIT` writes to a terminal is its bit of the resting pattern (R126). -/
theorem restLevel_eq_patternBit (p : Params) (t : Terminal) : p.restLevel t = patternBit p.restPattern t := rfl

/-- `INIT` leaves the resting pattern (R126). -/
theorem levelsAfter_initEvents (p : Params) (c : Pattern) : levelsAfter (initEvents p) c = p.restPattern :=
  pattern_ext fun u => by cases u <;> simp [initEvents, Event.coilAfter, restLevel_eq_patternBit]

/-- `FINI` leaves all terminals low when it writes them (R129). -/
theorem levelsAfter_finiEvents (p : Params) (c : Pattern) :
    levelsAfter (finiEvents p) c = if p.finiDeenergize then 0 else c := by
  unfold finiEvents
  split_ifs
  · refine pattern_ext fun u => ?_
    rw [patternBit_zero]
    cases u <;> simp [Event.coilAfter]
  · rfl

/-- The events of a command leave the levels of its command-level view. -/
theorem levelsAfter_commandEvents {p : Params} (h : p.valid = true) (s : State) (i : Instr) :
    levelsAfter (commandEvents p s.dcc i) s.coil = commandCoil p s i := by
  have hdrive : ∀ dir n, levelsAfter (driveEvents p dir n) s.coil = if n = 0 then s.coil else 0 := by
    intro dir n
    split_ifs with hn
    · rw [hn, driveEvents_zero, levelsAfter_nil]
    · exact levelsAfter_driveEvents h dir hn s.coil
  cases i with
  | init => exact levelsAfter_initEvents p s.coil
  | fini => exact levelsAfter_finiEvents p s.coil
  | quant deg => rfl
  | setpos | drive | stepcw | stepccw => exact hdrive _ _

/-- The events of a command leave the output enables of its command-level view. -/
theorem enablesAfter_commandEvents {p : Params} {c : Counter} {i : Instr} {oe : Pattern}
    (ho : needsTerminals p c i = true → oe = allTerminals) :
    enablesAfter (commandEvents p c i) oe = commandOe oe i := by
  by_cases hi : i = .init
  · subst hi
    exact enablesAfter_initEvents p oe
  · have hkeeps : commandOe oe i = oe := by
      cases i with
      | init => exact absurd rfl hi
      | fini | setpos | quant | drive | stepcw | stepccw => rfl
    cases hn : needsTerminals p c i with
    | true => rw [hkeeps, ho hn, enablesAfter_allTerminals]
    | false => rw [hkeeps, commandEvents_eq_nil hi hn, enablesAfter_nil]

/-- The state after the events and the response of a command is that of its command-level view. -/
theorem afterEvents_answered {p : Params} (h : p.valid = true) {s : State} {i : Instr} (q : Seq)
    (ho : needsTerminals p s.dcc i = true → s.oe = allTerminals) :
    State.afterEvents (answered p s.dcc i) .idle { s with dcc := commandDcc p s.dcc i, seq := q } =
      State.later (commandSteps p s.dcc i) (afterCommand p i s) := by
  have hcoil : levelsAfter (answered p s.dcc i) s.coil = commandCoil p s i := by
    rw [answered, levelsAfter_append, levelsAfter_commandEvents h]
    rfl
  have hoe : enablesAfter (answered p s.dcc i) s.oe = commandOe s.oe i := by
    rw [answered, enablesAfter_append, enablesAfter_commandEvents ho]
    rfl
  simp only [State.afterEvents, hcoil, hoe, length_answered]
  rfl

/-- A command that has been accepted runs to its command-level view. -/
theorem runWith_command {p : Params} (h : p.valid = true) {s : State} {i : Instr}
    (ho : needsTerminals p s.dcc i = true → s.oe = allTerminals) (hr : s.RstLow (commandSteps p s.dcc i)) :
    runWith p (commandSteps p s.dcc i) { s with dcc := commandDcc p s.dcc i, seq := startSeq p s.dcc i } =
      .next (State.later (commandSteps p s.dcc i) (afterCommand p i s)) := by
  have hrun := runWith_path (s := { s with dcc := commandDcc p s.dcc i, seq := startSeq p s.dcc i })
    (path_answered p s.dcc i) (allowed_answered ho) (by rw [length_answered]; exact hr.of_eq rfl)
  rwa [length_answered, afterEvents_answered h _ ho] at hrun

/-- Settles O45: the path of the command from where its acceptance starts it. -/
theorem microStepsRefineTheCommandView : Obligations.MicroStepsRefineTheCommandView := fun _ _ _ hp hq ho =>
  ⟨_, acceptInstr_idle hq ho, runWith_command hp ho⟩

end Sys2Proof.Machine
end

section
/-! PROOFS. The runs of the commands on this hardware: an accepted command runs to its command-level view (`run_command`), so a
drive and a bare response do (`run_drive`, `run_respond`). O23, O31, O32, O34 to O37 and O42; then O33 and O40, on the levels
inside a drive. -/

namespace Sys2Proof.Machine

/-! ### Runs of this hardware -/

/-- A run of any machine stops at a refusal. -/
theorem core_run_refused (M : Host.Core) {s : M.State} {r : M.Refusal} (k : Nat) (h : M.step s = .refused r) :
    M.run (k + 1) s = .refused r := by
  rw [Host.Core.run, h]

/-- A run of this hardware is a run with its parameters (R7). -/
theorem run_eq_runWith (k : Nat) (s : State) : run k s = runWith Params.hw k s := by
  induction k generalizing s with
  | zero => rfl
  | succ k ih =>
    have hstep := step_eq_stepWith s
    cases h : stepWith Params.hw s with
    | next t => rw [run_succ k (hstep.trans h), runWith_succ k h, ih]
    | fault f => cases f
    | refused r =>
      exact (core_run_refused Sys2Proof.core k (hstep.trans h)).trans (core_run_refused (variant Params.hw) k h).symm

/-- The state of the command-level view, `k` steps after an idle block accepted the command. -/
theorem later_afterCommand {p : Params} {i : Instr} {s : State} (hq : s.seq = .idle) (k : Nat) :
    State.later k (afterCommand p i s) =
      State.emitAll (answered p s.dcc i)
        { s with dcc := commandDcc p s.dcc i, coil := commandCoil p s i, oe := commandOe s.oe i,
                 rst := s.rst.drop k } := by
  cases s with
  | mk dcc coil oe seq cmd rst emitted =>
    subst hq
    rfl

/-- An accepted command runs to its command-level view. -/
theorem run_command {s : State} {i : Instr} (hq : s.seq = .idle)
    (ho : needsTerminals Params.hw s.dcc i = true → s.oe = allTerminals)
    (hr : s.RstLow (commandSteps Params.hw s.dcc i)) :
    run (commandSteps Params.hw s.dcc i)
        { s with dcc := commandDcc Params.hw s.dcc i, seq := startSeq Params.hw s.dcc i } =
      .next (State.emitAll (answered Params.hw s.dcc i)
        { s with dcc := commandDcc Params.hw s.dcc i, coil := commandCoil Params.hw s i, oe := commandOe s.oe i,
                 rst := s.rst.drop (commandSteps Params.hw s.dcc i) }) := by
  rw [run_eq_runWith, runWith_command Params.hw_valid ho hr, later_afterCommand hq]

/-- A response that is next is delivered as the only event (R81). -/
theorem run_respond {s : State} (hq : s.seq = .idle) (hr : s.RstLow 1) (value : Half) :
    run 1 { s with seq := .respond false value } =
      .next (State.emitAll [.rsp false value] { s with rst := s.rst.drop 1 }) := by
  have hlow : State.rstHigh { s with seq := .respond false value } = false := hr.now
  rw [run_one (step_respond hlow rfl), List.drop_one, ← hq]
  rfl

/-- A drive that has started runs its sub-steps and responds, leaving all terminals low (R121, R124). -/
theorem run_drive {s : State} {n : Nat} (hq : s.seq = .idle) (ho : s.oe = allTerminals) (hn : n ≠ 0)
    (hr : s.RstLow (12 * n + 1)) (dir : Dir) :
    run (12 * n + 1) { s with seq := .stepRun dir n 0 .energize } =
      .next (State.emitAll (driveEvents Params.hw dir n ++ [.rsp false 0])
        { s with coil := 0, rst := s.rst.drop (12 * n + 1) }) := by
  have hsteps : commandSteps Params.hw s.dcc (.drive dir n) = 12 * n + 1 :=
    congrArg (· + 1) (length_driveEvents Params.hw dir n)
  have hstart : startSeq Params.hw s.dcc (.drive dir n) = .stepRun dir n 0 .energize := driveStart_of_ne_zero dir hn
  have hcoil : commandCoil Params.hw s (.drive dir n) = 0 := if_neg hn
  have hrun := run_command (i := .drive dir n) hq (fun _ => ho) (hsteps ▸ hr)
  rw [hsteps, hstart, hcoil] at hrun
  exact hrun

/-! ### The commands -/

/-- Settles O23: acceptance by `exec_quant_idle`, then the bare response. -/
theorem quantRuns : Obligations.QuantRuns := by
  intro s deg hq hdeg
  refine ⟨nextDcc Params.hw s.dcc, BitVec.ofNat 16 (pulseCount Params.hw s.dcc deg), nextDcc_hw_toNat s.dcc, ?_,
    exec_quant_idle hq rfl, fun hr => run_respond (s := { s with dcc := nextDcc Params.hw s.dcc }) hq hr _⟩
  rw [pulseCount_hw_toNat s.dcc hdeg, pulseCount_hw_eq_two_divisions]

/-- Settles O31: a drive of one, clockwise. -/
theorem stepcwRuns : Obligations.StepcwRuns := fun _ hq =>
  ⟨fun ho => ⟨exec_idle hq fun _ => ho, fun hr => run_drive hq ho Nat.one_ne_zero hr .cw⟩, exec_unconfigured hq rfl⟩

/-- Settles O32: a drive of one, counter-clockwise. -/
theorem stepccwRuns : Obligations.StepccwRuns := fun _ hq =>
  ⟨fun ho => ⟨exec_idle hq fun _ => ho, fun hr => run_drive hq ho Nat.one_ne_zero hr .ccw⟩, exec_unconfigured hq rfl⟩

/-- Settles O34: nothing to drive, a drive, or a refusal. -/
theorem driveRuns : Obligations.DriveRuns := by
  intro s dir n hq
  refine ⟨fun hn => ?_, fun hn ho => ?_, fun hn ho => ?_⟩
  · subst hn
    exact ⟨exec_idle hq (by simp [needsTerminals]), fun hr => run_respond hq hr 0⟩
  · have hn : n ≠ 0 := Nat.one_le_iff_ne_zero.mp hn
    refine ⟨?_, fun hr => run_drive hq ho hn hr dir, countP_isWrite_driveEvents _ dir n, count_dwell_driveEvents _ dir n⟩
    rw [← driveStart_of_ne_zero dir hn]
    exact exec_idle hq fun _ => ho
  · exact exec_unconfigured hq (decide_eq_true (Nat.one_le_iff_ne_zero.mp hn)) ho

/-- A configured terminal carries its level (R29). -/
theorem pin_of_configured {s : State} (h : s.oe = allTerminals) (t : Terminal) :
    s.pin t = some (patternBit s.coil t) := by
  simp [State.pin, h]

/-- The levels of the resting pattern of this hardware, terminal by terminal (R126). -/
theorem patternBit_restPattern_hw :
    patternBit Params.hw.restPattern .a1 = true ∧ patternBit Params.hw.restPattern .a2 = false ∧
      patternBit Params.hw.restPattern .b1 = true ∧ patternBit Params.hw.restPattern .b2 = false := by decide

/-- Settles O35: the command-level view of `INIT`, with the pins read off it. -/
theorem initRuns : Obligations.InitRuns := by
  refine fun s hq => ⟨exec_idle hq (by simp [needsTerminals]), fun hr => ?_⟩
  obtain ⟨ha1, ha2, hb1, hb2⟩ := patternBit_restPattern_hw
  have hrun := run_command (i := .init) hq (by simp [needsTerminals]) hr
  have hpin : ∀ t, State.pin (State.emitAll (answered Params.hw s.dcc .init)
      { s with oe := 0b1111, coil := 0b0101, rst := s.rst.drop 9 }) t = some (patternBit Params.hw.restPattern t) :=
    pin_of_configured rfl
  exact ⟨_, hrun, rfl, (hpin .a1).trans (congrArg some ha1), (hpin .a2).trans (congrArg some ha2),
    (hpin .b1).trans (congrArg some hb1), (hpin .b2).trans (congrArg some hb2)⟩

/-- Settles O36: acceptance leaves the bare response next. -/
theorem finiRuns : Obligations.FiniRuns := fun _ hq =>
  ⟨exec_idle hq (fun h => nomatch h), fun hr => run_respond hq hr 0⟩

/-- The events of `FINI` with the documented option (R129). -/
def releaseEvents : List Event :=
  [.write .a1 false, .write .a2 false, .write .b1 false, .write .b2 false, .rsp false 0]

theorem path_releaseEvents (p : Params) : Path p (.finiRun 0) releaseEvents .idle :=
  .cons rfl (.cons rfl (.cons rfl (.cons rfl (.cons rfl (.nil _)))))

theorem levelsAfter_releaseEvents (c : Pattern) : levelsAfter releaseEvents c = 0 := by
  refine pattern_ext fun u => ?_
  rw [patternBit_zero]
  cases u <;> simp [releaseEvents, Event.coilAfter]

/-- Settles O37: the four writes leave all terminals low, whatever the other parameters are. -/
theorem finiOptionDeenergizes : Obligations.FiniOptionDeenergizes := by
  intro p s hp hq
  refine ⟨fun ho => ⟨?_, fun hr => ?_⟩, acceptInstr_unconfigured hq hp⟩
  · rw [acceptInstr_idle hq fun _ => ho, startSeq, if_pos hp]
    rfl
  · have hrun := runWith_path (s := { s with seq := .finiRun 0 }) (path_releaseEvents p) (allowed_of_configured ho _) hr
    rw [State.afterEvents, levelsAfter_releaseEvents, ← hq] at hrun
    exact hrun

/-- Settles O42: acceptance by the count of `QUANT`, then as `DRIVE`. -/
theorem setposRuns : Obligations.SetposRuns := by
  intro s dir deg n hq hn
  have hcount : pulseCount Params.hw s.dcc deg = n := by rw [pulseCount_hw_eq_two_divisions, hn]
  refine ⟨nextDcc Params.hw s.dcc, nextDcc_hw_toNat s.dcc, fun hzero => ?_, fun hpos ho => ?_, fun hpos ho => ?_⟩
  · subst hzero
    exact ⟨exec_setpos_idle hq hcount (absurd rfl),
      fun hr => run_respond (s := { s with dcc := nextDcc Params.hw s.dcc }) hq hr 0⟩
  · have hne : n ≠ 0 := Nat.one_le_iff_ne_zero.mp hpos
    refine ⟨?_, fun hr => run_drive (s := { s with dcc := nextDcc Params.hw s.dcc }) hq ho hne hr dir⟩
    rw [exec_setpos_idle hq hcount fun _ => ho, driveStart_of_ne_zero dir hne]
  · have hneeds : needsTerminals Params.hw s.dcc (.setpos dir deg) = true :=
      decide_eq_true (hcount.trans_ne (Nat.one_le_iff_ne_zero.mp hpos))
    exact exec_unconfigured hq hneeds ho

/-! ### The levels inside a drive -/

/-- A run over the first events of a path shows the levels they leave. -/
theorem run_take {s : State} {es : List Event} {q : Seq} {j : Nat} (h : Path Params.hw s.seq es q)
    (ho : s.oe = allTerminals) (hj : j ≤ es.length) (hr : s.RstLow j) :
    ∃ t, run j s = .next t ∧ t.coil = levelsAfter (es.take j) s.coil := by
  obtain ⟨q', hpath⟩ := h.take j
  have hlength : (es.take j).length = j := List.length_take_of_le hj
  have hrun := runWith_path hpath (allowed_of_configured ho _) (by rwa [hlength])
  rw [hlength, ← run_eq_runWith] at hrun
  exact ⟨_, hrun, rfl⟩

/-- Settles O33: each column of the tables is the levels after the first events of a sub-step. -/
theorem subStepPatternTables : Obligations.SubStepPatternTables := by
  intro s ho hr levelsOf
  have hlevels : ∀ dir start, levelsOf dir start =
      (List.range 12).map fun k => some (levelsAfter ((subStepEvents (Params.hw.order dir)).take (k + 1)) start) := by
    intro dir start
    refine List.map_congr_left fun k hk => ?_
    have hk : k + 1 ≤ 12 := List.mem_range.mp hk
    obtain ⟨t, hrun, hcoil⟩ := run_take (s := { s with coil := start, seq := .stepRun dir 1 0 .energize })
      (path_subStep Params.hw dir 1) ho hk (hr.mono hk)
    rw [hrun]
    exact congrArg some hcoil
  simp only [hlevels]
  decide

/-- Settles O40: the levels inside the two drives are those after the first events of their lists. -/
theorem drivePatternsRetrace : Obligations.DrivePatternsRetrace := by
  intro s dir dir' n j hn hj hd ho hcoil hr
  have hpath : ∀ d, Path Params.hw (.stepRun d n 0 .energize) (driveEvents Params.hw d n) (.respond false 0) := by
    intro d
    rw [← driveStart_of_ne_zero d (Nat.one_le_iff_ne_zero.mp hn)]
    exact path_drive Params.hw d n
  have hshow : ∀ d k, k ≤ 12 * n → ∃ t, run k { s with seq := .stepRun d n 0 .energize } = .next t ∧
      t.coil = levelsAfter ((driveEvents Params.hw d n).take k) 0 := by
    intro d k hk
    obtain ⟨t, hrun, ht⟩ := run_take (s := { s with seq := .stepRun d n 0 .energize }) (hpath d) ho
      (hk.trans_eq (length_driveEvents _ d n).symm) (hr.mono hk)
    exact ⟨t, hrun, ht.trans (congrArg _ hcoil)⟩
  obtain ⟨t, hrun, ht⟩ := hshow dir j hj
  obtain ⟨t', hrun', ht'⟩ := hshow dir' (12 * n - j) (Nat.sub_le _ _)
  exact ⟨t, t', hrun, hrun', by rw [ht, ht', levelsAfter_take_drive Params.hw_valid hd]⟩

end Sys2Proof.Machine
end

section
/-! PROOFS. Lists of words. An idle block carries out each word the host presents in turn (R80, R161, R194), which `run_words`
says once for a whole list; O29, O38, O43, O44 and O51 are what the list leaves. -/

namespace Sys2Proof.Machine

/-! ### One word -/

/-- The events of a word: those of its command, or the error response of an illegal word (R161). -/
def wordEvents (c : Counter) (w : Word) : List Event :=
  match decode w with
  | .ok i => answered Params.hw c i
  | .error _ => [.rsp true 0]

/-- `DCC` after a word. -/
def wordDcc (c : Counter) (w : Word) : Counter :=
  match decode w with
  | .ok i => commandDcc Params.hw c i
  | .error _ => c

/-- The state after a word. -/
def afterWord (w : Word) (s : State) : State :=
  match decode w with
  | .ok i => afterCommand Params.hw i s
  | .error _ => State.emitAll [.rsp true 0] { s with seq := .idle }

/-- The terminals a word needs, if any, are configured. -/
def WordReady (s : State) (w : Word) : Prop :=
  ∀ i, decode w = .ok i → needsTerminals Params.hw s.dcc i = true → s.oe = allTerminals

@[simp] theorem afterWord_dcc (w : Word) (s : State) : (afterWord w s).dcc = wordDcc s.dcc w := by
  unfold afterWord wordDcc
  cases decode w <;> rfl

@[simp] theorem afterWord_seq (w : Word) (s : State) : (afterWord w s).seq = .idle := by
  unfold afterWord
  cases decode w <;> rfl

@[simp] theorem afterWord_rst (w : Word) (s : State) : (afterWord w s).rst = s.rst := by
  unfold afterWord
  cases decode w <;> rfl

@[simp] theorem afterWord_cmd (w : Word) (s : State) : (afterWord w s).cmd = s.cmd := by
  unfold afterWord
  cases decode w <;> rfl

@[simp] theorem afterWord_trace (w : Word) (s : State) :
    (afterWord w s).trace = s.trace ++ wordEvents s.dcc w := by
  unfold afterWord wordEvents
  cases decode w <;> exact trace_emitAll _ _

theorem commandOe_allTerminals (i : Instr) : commandOe allTerminals i = allTerminals := by
  cases i <;> rfl

/-- No word clears `OE` (R23). -/
theorem afterWord_oe {s : State} (ho : s.oe = allTerminals) (w : Word) : (afterWord w s).oe = allTerminals := by
  unfold afterWord
  cases decode w with
  | error e => exact ho
  | ok i =>
    rw [← commandOe_allTerminals i, ← ho]
    rfl

/-- A state with no level listed at `rst` has it low for good. -/
theorem rstLow_of_nil {s : State} (h : s.rst = []) (k : Nat) : s.RstLow k := by
  simp [State.RstLow, h]

/-- Low for longer is low for what is left. -/
theorem State.RstLow.after {s t : State} {j k : Nat} (h : s.RstLow (j + k)) (ht : t.rst = s.rst.drop j) : t.RstLow k := by
  intro level hl
  rw [ht, List.take_drop] at hl
  exact h level (List.mem_of_mem_drop hl)

/-- An idle block carries out a legal word the host presents: one step to accept it, and its events. -/
theorem run_legal_word {s : State} {w : Word} {moves : List HostMove} {i : Instr} (hq : s.seq = .idle)
    (hc : s.cmd = .present w :: moves) (hd : decode w = .ok i)
    (ho : needsTerminals Params.hw s.dcc i = true → s.oe = allTerminals)
    (hr : s.RstLow (commandSteps Params.hw s.dcc i + 1)) :
    run (commandSteps Params.hw s.dcc i + 1) s =
      .next (State.later (commandSteps Params.hw s.dcc i + 1) (afterCommand Params.hw i { s with cmd := moves })) := by
  have haccept := step_accept hr.now hq hc hd
  rw [exec_idle (s := { s with cmd := moves, rst := s.rst.tail }) hq ho] at haccept
  rw [run_succ _ haccept]
  have hrun := run_command (s := { s with cmd := moves, rst := s.rst.tail }) hq ho (hr.next rfl)
  rw [List.drop_tail] at hrun
  rw [later_afterCommand (s := { s with cmd := moves }) hq]
  exact hrun

/-- An idle block carries out any word the host presents: one step to accept it, and one for each of its events. -/
theorem run_word {s : State} {w : Word} {moves : List HostMove} (hq : s.seq = .idle) (hrst : s.rst = [])
    (hc : s.cmd = .present w :: moves) (ho : WordReady s w) :
    run ((wordEvents s.dcc w).length + 1) s = .next (afterWord w { s with cmd := moves }) := by
  unfold wordEvents afterWord
  cases hd : decode w with
  | ok i =>
    have hrun := run_legal_word hq hc hd (ho i hd) (rstLow_of_nil hrst _)
    rw [← length_answered] at hrun
    have hlater : ∀ k, State.later k (afterCommand Params.hw i { s with cmd := moves }) =
        afterCommand Params.hw i { s with cmd := moves } := by
      intro k
      have hdrop : s.rst.drop k = s.rst := by rw [hrst, List.drop_nil]
      exact congrArg (fun levels => { afterCommand Params.hw i { s with cmd := moves } with rst := levels }) hdrop
    rwa [hlater] at hrun
  | error e =>
    have hrun := run_illegal (rstLow_of_nil hrst 2) hq hc (exists_decode_eq_error_iff.mp ⟨e, hd⟩)
    simpa [hq, hrst] using hrun

/-- What a word leaves does not depend on the moves that wait behind it. -/
theorem afterWord_with_cmd (w : Word) (s : State) (moves : List HostMove) :
    { afterWord w s with cmd := moves } = afterWord w { s with cmd := moves } := by
  unfold afterWord
  cases decode w <;> rfl

/-! ### A list of words -/

/-- The state after a list of words. -/
def afterWords (words : List Word) (s : State) : State := words.foldl (fun s w => afterWord w s) s

/-- `DCC` after a list of words. -/
def listDcc (c : Counter) (words : List Word) : Counter := words.foldl wordDcc c

/-- The events of a list of words. -/
def listEvents (c : Counter) : List Word → List Event
  | [] => []
  | w :: words => wordEvents c w ++ listEvents (wordDcc c w) words

/-- The steps of a list of words: one to accept each, and one for each event. -/
def listSteps (c : Counter) (words : List Word) : Nat := words.length + (listEvents c words).length

/-- Every word of a list finds the terminals it needs configured. -/
def ListReady : List Word → State → Prop
  | [], _ => True
  | w :: words, s => WordReady s w ∧ ListReady words (afterWord w s)

/-- Once configured, the terminals stay so for every word (R23). -/
theorem listReady_of_configured (words : List Word) {s : State} (ho : s.oe = allTerminals) : ListReady words s := by
  induction words generalizing s with
  | nil => trivial
  | cons w words ih => exact ⟨fun _ _ _ => ho, ih (afterWord_oe ho w)⟩

theorem listSteps_cons (c : Counter) (w : Word) (words : List Word) :
    listSteps c (w :: words) = (wordEvents c w).length + 1 + listSteps (wordDcc c w) words := by
  simp only [listSteps, listEvents, List.length_cons, List.length_append]
  omega

/-- An idle block carries out any list of words the host presents. -/
theorem run_words {s : State} (words : List Word) (hq : s.seq = .idle) (hrst : s.rst = [])
    (hc : s.cmd = words.map .present) (hready : ListReady words { s with cmd := [] }) :
    run (listSteps s.dcc words) s = .next (afterWords words { s with cmd := [] }) := by
  induction words generalizing s with
  | nil =>
    have hnone : s.cmd = [] := hc
    rw [← hnone]
    rfl
  | cons w words ih =>
    obtain ⟨hword, hwords⟩ := hready
    have hcmd := afterWord_with_cmd w { s with cmd := words.map .present } []
    have hrest : run (listSteps (wordDcc s.dcc w) words) (afterWord w { s with cmd := words.map .present }) =
        .next (afterWords words (afterWord w { s with cmd := [] })) := by
      have hdcc := afterWord_dcc w { s with cmd := words.map .present }
      rw [← hcmd] at hwords ⊢
      rw [← hdcc]
      exact ih (afterWord_seq _ _) ((afterWord_rst _ _).trans hrst) (afterWord_cmd _ _) hwords
    rw [listSteps_cons, run_add _ (run_word hq hrst hc hword), hrest]
    rfl

/-- An idle block is idle after any list of words. -/
theorem afterWords_seq (words : List Word) {s : State} (hq : s.seq = .idle) : (afterWords words s).seq = .idle := by
  induction words generalizing s with
  | nil => exact hq
  | cons w words ih => exact ih (afterWord_seq w s)

theorem afterWords_cmd (words : List Word) (s : State) : (afterWords words s).cmd = s.cmd := by
  induction words generalizing s with
  | nil => rfl
  | cons w words ih => exact (ih (afterWord w s)).trans (afterWord_cmd w s)

theorem afterWords_dcc (words : List Word) (s : State) : (afterWords words s).dcc = listDcc s.dcc words := by
  induction words generalizing s with
  | nil => rfl
  | cons w words ih => exact (ih (afterWord w s)).trans (congrArg (listDcc · words) (afterWord_dcc w s))

theorem afterWords_oe (words : List Word) {s : State} (ho : s.oe = allTerminals) :
    (afterWords words s).oe = allTerminals := by
  induction words generalizing s with
  | nil => exact ho
  | cons w words ih => exact ih (afterWord_oe ho w)

theorem afterWords_trace (words : List Word) (s : State) :
    (afterWords words s).trace = s.trace ++ listEvents s.dcc words := by
  induction words generalizing s with
  | nil => exact (List.append_nil _).symm
  | cons w words ih =>
    rw [listEvents, ← List.append_assoc, ← afterWord_trace, ← afterWord_dcc]
    exact ih (afterWord w s)

/-! ### Any finite list of words -/

/-- A command has one response, its last event. -/
theorem countP_isRsp_answered (c : Counter) (i : Instr) : (answered Params.hw c i).countP Event.isRsp = 1 := by
  have hbefore : (commandEvents Params.hw c i).countP Event.isRsp = 0 := by
    cases i with
    | init | fini | quant => rfl
    | setpos | drive | stepcw | stepccw => exact countP_isRsp_driveEvents _ _ _
  rw [answered, List.countP_append, hbefore]
  rfl

theorem countP_isRsp_wordEvents (c : Counter) (w : Word) : (wordEvents c w).countP Event.isRsp = 1 := by
  unfold wordEvents
  cases decode w with
  | ok i => exact countP_isRsp_answered c i
  | error e => rfl

/-- Every word has one response (R188). -/
theorem countP_isRsp_listEvents (c : Counter) (words : List Word) :
    (listEvents c words).countP Event.isRsp = words.length := by
  induction words generalizing c with
  | nil => rfl
  | cons w words ih =>
    rw [listEvents, List.countP_append, countP_isRsp_wordEvents, ih, List.length_cons, Nat.add_comm]

/-- A word advances the counter by one when it is a conversion call, and not otherwise (R21). -/
theorem wordDcc_toNat {c : Counter} (hc : c ≠ 3) (w : Word) :
    wordDcc c w ≠ 3 ∧ (wordDcc c w).toNat = (c.toNat + conversionCount [w]) % 3 := by
  have hsmall : c.toNat % 3 = c.toNat := by
    revert c
    decide
  unfold wordDcc conversionCount
  cases hd : decode w with
  | error e => exact ⟨hc, by simp [hd, hsmall]⟩
  | ok i =>
    refine ⟨commandDcc_hw_ne_three hc i, ?_⟩
    cases hi : isConversion i <;> simp [hd, commandDcc, hi, nextDcc_hw_toNat, hsmall]

/-- A list advances the counter by its conversion calls, modulo 3 (R108). -/
theorem listDcc_toNat {c : Counter} (hc : c ≠ 3) (words : List Word) :
    (listDcc c words).toNat = (c.toNat + conversionCount words) % 3 := by
  induction words generalizing c with
  | nil =>
    revert c
    decide
  | cons w words ih =>
    obtain ⟨hne, hword⟩ := wordDcc_toNat hc w
    have hcount : conversionCount (w :: words) = conversionCount [w] + conversionCount words := by
      rw [conversionCount, List.countP_cons, conversionCount, conversionCount, List.countP_singleton]
      omega
    have hlist := ih hne
    rw [listDcc, List.foldl_cons]
    rw [listDcc] at hlist
    rw [hlist, hword, hcount, Nat.mod_add_mod, Nat.add_assoc]

/-- Settles O51: the run of the whole list, with its counter and its responses counted. -/
theorem finiteCommandListsFinish : Obligations.FiniteCommandListsFinish := by
  intro words s hdcc hq ho hrst hc
  refine ⟨_, _, run_words words hq hrst hc (listReady_of_configured words ho), afterWords_seq words hq,
    afterWords_cmd words _, afterWords_oe words ho, ?_, ?_⟩
  · rw [afterWords_dcc]
    exact listDcc_toNat hdcc words
  · rw [afterWords_trace, List.countP_append, countP_isRsp_listEvents]
    rfl

end Sys2Proof.Machine
end

section
/-! PROOFS. Given lists of words: `INIT` and `FINI`, a `SETPOS` against the pair `QUANT` and `DRIVE`, and lists of conversion
calls, whose counter runs through 1, 2, 0 (R108, R127, R151, R152). O29, O38, O43 and O44. -/

namespace Sys2Proof.Machine

/-! ### `INIT` and `FINI` -/

/-- Settles O38: two legal words, one after the other. -/
theorem initThenFiniWritesOnlyTheRestingPattern : Obligations.InitThenFiniWritesOnlyTheRestingPattern := by
  intro s hq hc hr
  refine ⟨?_, rfl⟩
  have hinit : run 10 s = _ := run_legal_word hq hc (decode_encode (i := .init) rfl) (fun h => nomatch h)
    (hr.mono (show 10 ≤ 12 by decide))
  refine (run_add 2 hinit).trans ?_
  refine (run_legal_word (i := .fini) rfl rfl (decode_encode rfl) (fun h => nomatch h)
    (State.RstLow.after (j := 10) hr rfl)).trans ?_
  have hdrop : (s.rst.drop 10).drop 2 = s.rst.drop 12 := List.drop_drop
  rw [hq, ← hdrop]
  rfl

/-! ### The word of a command -/

theorem afterWord_encode {i : Instr} (hi : i.wellFormed = true) (s : State) :
    afterWord (encode i) s = afterCommand Params.hw i s := by
  rw [afterWord, decode_encode hi]

theorem wordEvents_encode {i : Instr} (hi : i.wellFormed = true) (c : Counter) :
    wordEvents c (encode i) = answered Params.hw c i := by
  rw [wordEvents, decode_encode hi]

theorem wordDcc_encode {i : Instr} (hi : i.wellFormed = true) (c : Counter) :
    wordDcc c (encode i) = commandDcc Params.hw c i := by
  rw [wordDcc, decode_encode hi]

theorem wordReady_encode {i : Instr} {s : State} (hi : i.wellFormed = true)
    (ho : needsTerminals Params.hw s.dcc i = true → s.oe = allTerminals) : WordReady s (encode i) := by
  intro j hj hn
  rw [decode_encode hi] at hj
  injection hj with hj
  exact ho (hj ▸ hn)

/-- The trace grows by the events of the command and its response. -/
theorem afterCommand_trace (i : Instr) (s : State) :
    (afterCommand Params.hw i s).trace = s.trace ++ answered Params.hw s.dcc i := trace_emitAll _ _

/-- Settles O43: both lists of words are carried out, the counter is advanced once in each, and the drive is the same. -/
theorem setposIsQuantThenDrive : Obligations.SetposIsQuantThenDrive := by
  intro s dir deg n hq ho hrst hdeg hn
  have hconfigured : n ≠ 0 → s.oe = allTerminals := ho.resolve_left
  have hset : (Instr.setpos dir deg).wellFormed = true := decide_eq_true hdeg
  have hquant : (Instr.quant deg).wellFormed = true := decide_eq_true hdeg
  have hdrive : (Instr.drive dir n).wellFormed = true :=
    decide_eq_true ((hn.trans_le (pulseCount_hw_le s.dcc hdeg)).trans_lt (by decide))
  subst hn
  have hone := run_words (s := { s with cmd := [.present (encode (.setpos dir deg))] })
    [encode (.setpos dir deg)] hq hrst rfl
    ⟨wordReady_encode hset fun h => hconfigured (of_decide_eq_true h), trivial⟩
  have hready : needsTerminals Params.hw (afterWord (encode (.quant deg)) { s with cmd := [] }).dcc
      (.drive dir (pulseCount Params.hw s.dcc deg)) = true →
        (afterWord (encode (.quant deg)) { s with cmd := [] }).oe = allTerminals := by
    rw [afterWord_encode hquant]
    exact fun h => hconfigured (of_decide_eq_true h)
  have htwo := run_words (s := { s with
      cmd := [.present (encode (.quant deg)), .present (encode (.drive dir (pulseCount Params.hw s.dcc deg)))] })
    [encode (.quant deg), encode (.drive dir (pulseCount Params.hw s.dcc deg))] hq hrst rfl
    ⟨wordReady_encode hquant (fun h => nomatch h), wordReady_encode hdrive hready, trivial⟩
  simp only [afterWords, List.foldl_cons, List.foldl_nil, afterWord_encode hset] at hone
  simp only [afterWords, List.foldl_cons, List.foldl_nil, afterWord_encode hquant, afterWord_encode hdrive] at htwo
  refine ⟨_, _, _, _, hone, htwo, rfl, rfl, rfl, rfl, rfl, rfl, rfl, ?_, ?_⟩
  · rw [afterCommand_trace, List.append_assoc]
    rfl
  · rw [afterCommand_trace, afterCommand_trace, List.append_assoc, List.append_assoc, List.append_assoc]
    rfl

/-! ### Lists of conversion calls -/

/-- The moves that present the words of a list of commands. -/
theorem map_present {α : Type} (f : α → Instr) (xs : List α) :
    (xs.map fun x => HostMove.present (encode (f x))) = (xs.map fun x => encode (f x)).map .present := by
  rw [List.map_map]
  rfl

/-- From a counter of `(1 + m) mod 3` the calls of a list of conversion calls find it at `(1 + m + j) mod 3` (R108). -/
theorem listEvents_conversions {α : Type} {f : α → Instr} (hf : ∀ x, isConversion (f x) = true) {xs : List α}
    (hwf : ∀ x ∈ xs, (f x).wellFormed = true) {m : Nat} {c : Counter} (hc : c.toNat = (1 + m) % 3) :
    listEvents c (xs.map fun x => encode (f x)) =
      (xs.mapIdx fun j x => answered Params.hw (BitVec.ofNat 2 ((1 + m + j) % 3)) (f x)).flatten := by
  induction xs generalizing m c with
  | nil => rfl
  | cons x xs ih =>
    obtain ⟨hx, hxs⟩ := List.forall_mem_cons.mp hwf
    have hfirst : c = BitVec.ofNat 2 ((1 + m + 0) % 3) := by
      apply BitVec.eq_of_toNat_eq
      rw [BitVec.toNat_ofNat, hc]
      omega
    have hnext : (nextDcc Params.hw c).toNat = (1 + (m + 1)) % 3 := by
      rw [nextDcc_hw_toNat, hc]
      omega
    have hindex : ∀ j, 1 + m + (j + 1) = 1 + (m + 1) + j := by omega
    rw [List.map_cons, listEvents, wordEvents_encode hx, wordDcc_encode hx, commandDcc, if_pos (hf x),
      ih hxs hnext, List.mapIdx_cons, List.flatten_cons, ← hfirst]
    simp only [hindex]

/-- The counter after a list of conversion calls (R108). -/
theorem listDcc_conversions {α : Type} {f : α → Instr} (hf : ∀ x, isConversion (f x) = true) {xs : List α}
    (hwf : ∀ x ∈ xs, (f x).wellFormed = true) {c : Counter} (hc : c = 1) :
    (listDcc c (xs.map fun x => encode (f x))).toNat = (1 + xs.length) % 3 := by
  have hcount : conversionCount (xs.map fun x => encode (f x)) = xs.length := by
    rw [conversionCount, List.countP_map, List.countP_eq_length]
    intro x hx
    simp [decode_encode (hwf x hx), hf x]
  subst hc
  rw [listDcc_toNat (by decide), hcount]
  rfl

/-- The count of the call that finds the counter at `(1 + j) mod 3`: call `k = j + 1` is a correction when `k mod 3 = 2`
(R108). -/
theorem pulseCount_cadence (j arg : Nat) :
    pulseCount Params.hw (BitVec.ofNat 2 ((1 + 0 + j) % 3)) arg = arg / 72 + if (j + 1) % 3 = 2 then 1 else 0 := by
  have htwo : BitVec.ofNat 2 ((1 + 0 + j) % 3) = 2 ↔ (j + 1) % 3 = 2 := by
    rw [BitVec.toNat_eq, BitVec.toNat_ofNat, show (2 : Counter).toNat = 2 from rfl]
    omega
  rw [pulseCount_hw_eq]
  simp only [htwo]

/-- The command of a `SETPOS` request (R150). -/
def setposOf (request : Dir × Nat) : Instr := .setpos request.1 request.2

/-- Settles O44: the events of each call are its drive and its response. -/
theorem setposCadence : Obligations.SetposCadence := by
  intro s requests hq ho hrst hdcc hfit
  have hwf : ∀ r ∈ requests, (setposOf r).wellFormed = true := fun r hr => decide_eq_true (hfit r hr)
  have hrun := run_words (s := { s with cmd := requests.map fun r => .present (encode (setposOf r)) })
    (requests.map fun r => encode (setposOf r)) hq hrst (map_present setposOf requests) (listReady_of_configured _ ho)
  refine ⟨_, _, hrun, afterWords_seq _ hq, afterWords_cmd _ _, ?_, ?_, ?_⟩
  · exact (afterWords_oe _ (s := { s with cmd := [] }) ho).trans ho.symm
  · rw [afterWords_dcc]
    exact listDcc_conversions (fun _ => rfl) hwf hdcc
  · have hcall : ∀ j r, answered Params.hw (BitVec.ofNat 2 ((1 + 0 + j) % 3)) (setposOf r) =
        driveEvents Params.hw r.1 (r.2 / 72 + if (j + 1) % 3 = 2 then 1 else 0) ++ [.rsp false 0] := by
      intro j r
      rw [← pulseCount_cadence]
      rfl
    rw [afterWords_trace, listEvents_conversions (m := 0) (fun _ => rfl) hwf (by rw [hdcc]; rfl)]
    simp only [hcall]
    rfl

/-- `QUANT` needs no terminal and keeps the levels and the output enables (R100). -/
theorem quant_list {angles : List Nat} (hfit : ∀ a ∈ angles, a < 65536) (s : State) :
    ListReady (angles.map fun a => encode (.quant a)) s ∧
      (afterWords (angles.map fun a => encode (.quant a)) s).coil = s.coil ∧
      (afterWords (angles.map fun a => encode (.quant a)) s).oe = s.oe := by
  induction angles generalizing s with
  | nil => exact ⟨trivial, rfl, rfl⟩
  | cons a angles ih =>
    obtain ⟨ha, hangles⟩ := List.forall_mem_cons.mp hfit
    have hwf : (Instr.quant a).wellFormed = true := decide_eq_true ha
    obtain ⟨hready, hcoil, hoe⟩ := ih hangles (afterWord (encode (.quant a)) s)
    have hkeeps := afterWord_encode hwf s
    exact ⟨⟨wordReady_encode hwf (fun h => nomatch h), hready⟩, hcoil.trans (by rw [hkeeps]; rfl),
      hoe.trans (by rw [hkeeps]; rfl)⟩

/-- Indexed lists of one element each, one after the other. -/
theorem flatten_mapIdx_singleton {α β : Type} (f : Nat → α → β) (xs : List α) :
    (xs.mapIdx fun j x => [f j x]).flatten = xs.mapIdx f := by
  induction xs generalizing f with
  | nil => rfl
  | cons x xs ih =>
    rw [List.mapIdx_cons, List.mapIdx_cons, List.flatten_cons, ih fun j => f (j + 1), List.singleton_append]

/-- From a counter of 1 the events of a list of `QUANT` are its responses (R108). -/
theorem listEvents_quants {angles : List Nat} (hfit : ∀ a ∈ angles, a < 65536) :
    listEvents 1 (angles.map fun a => encode (.quant a)) =
      angles.mapIdx fun j a => .rsp false (BitVec.ofNat 16 (a / 72 + if (j + 1) % 3 = 2 then 1 else 0)) := by
  have hcall : ∀ j a, answered Params.hw (BitVec.ofNat 2 ((1 + 0 + j) % 3)) (.quant a) =
      [.rsp false (BitVec.ofNat 16 (a / 72 + if (j + 1) % 3 = 2 then 1 else 0))] := by
    intro j a
    rw [← pulseCount_cadence]
    rfl
  rw [listEvents_conversions (f := .quant) (m := 0) (fun _ => rfl) (fun a ha => decide_eq_true (hfit a ha)) rfl]
  simp only [hcall]
  exact flatten_mapIdx_singleton _ _

/-- Settles O29: two steps a word, one to accept it and one to answer it. -/
theorem quantCadenceFromReset : Obligations.QuantCadenceFromReset := by
  intro angles hfit
  obtain ⟨hready, hcoil, hoe⟩ := quant_list hfit State.reset
  have hrun := run_words (s := { State.reset with cmd := angles.map fun a => .present (encode (.quant a)) })
    (angles.map fun a => encode (.quant a)) rfl rfl (map_present _ _) hready
  have hsteps : listSteps 1 (angles.map fun a => encode (.quant a)) = 2 * angles.length := by
    rw [listSteps, listEvents_quants hfit, List.length_map, List.length_mapIdx]
    omega
  refine ⟨_, hsteps ▸ hrun, ?_, ?_, hcoil, hoe, afterWords_seq _ rfl, afterWords_cmd _ _⟩
  · rw [afterWords_trace]
    exact listEvents_quants hfit
  · rw [afterWords_dcc]
    exact listDcc_conversions (f := .quant) (fun _ => rfl) (fun a ha => decide_eq_true (hfit a ha)) rfl

end Sys2Proof.Machine
end
